-- ==== Sys2Proof/Word.lean ====
section
/-! DEFINITION. The word types of the chip8-rs core (spec 00_scope.md R8, R9).

Every value of this machine is an unsigned bit vector of a stated width (R9); nothing is signed and
nothing is sign-extended.  The types below are abbreviations, so that the library's lemmas about
`BitVec` apply to them unchanged. -/

namespace Sys2Proof

/-- `u8`: a general register, a timer, a byte of memory, the immediate `kk`. -/
abbrev Byte := BitVec 8

/-- `u16`: an instruction word (R80). -/
abbrev Word := BitVec 16

/-- `u16`: the program counter, the index register, a return address (R24, R25, R29). -/
abbrev Addr := BitVec 16

/-- `u12`: the operand `nnn`, an absolute byte address (R84). -/
abbrev Addr12 := BitVec 12

/-- `u4`: the number of a general register, a field of the word (R21). -/
abbrev RegNum := BitVec 4

/-- The number of the flag register `VF = V[15]` (R22). -/
abbrev flagReg : RegNum := 15#4

end Sys2Proof
end

