-- ==== Sys2Proof/Config.lean ====
section
/-! DEFINITION. The implementation parameters of spec 00_scope.md R6, as fields of one structure, each
with the value this hardware takes as its default.  The configuration is not state: it never changes
(10_state.md R20).  Shared operations take a `Config` as an argument, so that a claim about them can
quantify over it; the machine itself is built at `Config.hw`.

What the document fixes is not a parameter: 16 general registers, 8-bit registers and timers, 16-bit
words, program counter and index register (R6, rows `NREG` to `TLEN`). -/

namespace Sys2Proof

/-- Which of the two fetched bytes is the high-order byte of the word (R6, `FETCH_ORDER`; decision D1). -/
inductive FetchOrder where
  /-- The byte at the lower address is the high-order byte (R56, the value of this hardware). -/
  | highFirst
  /-- The byte at the lower address is the low-order byte: the document's prose, rejected by 90_conflicts.md C1. -/
  | lowFirst
  deriving DecidableEq, Repr

/-- The sixteen glyphs of 20_memory.md R54, digits 0 to F in order, five bytes each, top row first.
UNVERIFIED: the spec gives them from general knowledge (G5, decision D7); log entry 5. -/
def glyphBytes : List Byte :=
  [0xF0#8, 0x90#8, 0x90#8, 0x90#8, 0xF0#8] ++
  [0x20#8, 0x60#8, 0x20#8, 0x20#8, 0x70#8] ++
  [0xF0#8, 0x10#8, 0xF0#8, 0x80#8, 0xF0#8] ++
  [0xF0#8, 0x10#8, 0xF0#8, 0x10#8, 0xF0#8] ++
  [0x90#8, 0x90#8, 0xF0#8, 0x10#8, 0x10#8] ++
  [0xF0#8, 0x80#8, 0xF0#8, 0x10#8, 0xF0#8] ++
  [0xF0#8, 0x80#8, 0xF0#8, 0x90#8, 0xF0#8] ++
  [0xF0#8, 0x10#8, 0x20#8, 0x40#8, 0x40#8] ++
  [0xF0#8, 0x90#8, 0xF0#8, 0x90#8, 0xF0#8] ++
  [0xF0#8, 0x90#8, 0xF0#8, 0x10#8, 0xF0#8] ++
  [0xF0#8, 0x90#8, 0xF0#8, 0x90#8, 0x90#8] ++
  [0xE0#8, 0x90#8, 0xE0#8, 0x90#8, 0xE0#8] ++
  [0xF0#8, 0x80#8, 0x80#8, 0x80#8, 0xF0#8] ++
  [0xE0#8, 0x90#8, 0x90#8, 0x90#8, 0xE0#8] ++
  [0xF0#8, 0x80#8, 0xF0#8, 0x80#8, 0xF0#8] ++
  [0xF0#8, 0x80#8, 0xF0#8, 0x80#8, 0x80#8]

/-- The parameters of R6.  `GLYPH_LEN` is the length of `glyphTable` (`Config.glyphLen`). -/
structure Config where
  /-- `MEM_SIZE`, written N: the number of bytes of memory (decision D2, log entry 2). -/
  memSize : Nat := 4096
  /-- `PROGRAM_ORIGIN`: where the image is loaded and where `pc` starts (decision D3, log entry 3). -/
  programOrigin : Nat := 0x200
  /-- `STACK_CAPACITY`, written S: the number of return-address slots (decision D4, log entry 4). -/
  stackCapacity : Nat := 16
  /-- `DISPLAY_W`: pixel columns (decision D5, log entry 4). -/
  displayW : Nat := 64
  /-- `DISPLAY_H`: pixel rows (decision D5, log entry 4). -/
  displayH : Nat := 32
  /-- `KEY_COUNT`, written K: the number of keys (decision D6, log entry 4). -/
  keyCount : Nat := 16
  /-- `GLYPH_BASE`: where the font stands (decision D7, log entry 5). -/
  glyphBase : Nat := 0
  /-- `GLYPH_TABLE`: the font's bytes (decision D7, log entry 5). -/
  glyphTable : List Byte := glyphBytes
  /-- `FETCH_ORDER` (decision D1, log entry 1). -/
  fetchOrder : FetchOrder := .highFirst
  deriving DecidableEq, Repr

/-- `GLYPH_LEN`: the length of the glyph table (R6). -/
def Config.glyphLen (c : Config) : Nat := c.glyphTable.length

/-- The configuration of this hardware: every parameter at the value of R6. -/
abbrev Config.hw : Config := {}

end Sys2Proof
end

