-- ==== Sys2Proof/Machine/State.lean ====
section
/-! DEFINITION. The state of the machine: the ten elements of spec 10_state.md R20 and nothing else, the
four fault causes (60_exceptions.md R210 to R213), and the state after reset (R42, 70_reset_and_hazards.md
R240).

State is plain data: lists, vectors and bit vectors, no functions. -/

namespace Sys2Proof.Machine

/-- The four fault causes of 60_exceptions.md.  A cycle that raises one LATCHES it in the state's `fault`
element and the machine goes on to a next state (R214, R215); `step` never answers `Outcome.fault`, because
a cycle always runs to completion (R11) and the outcome carries nothing that is not in the state afterwards
(R180, 90_conflicts.md C8).  Log entry 6. -/
inductive Fault where
  /-- Code 1: the word matches none of the 15 patterns (R210).  Raised by `step`, after the fetch.  Safe: the
  spec's own fault, with the state R215 gives. -/
  | unimplementedOpcode
  /-- Code 2: a push with `sp = S` (R211).  Raised by `execCall` only.  Safe: the spec's own fault. -/
  | stackOverflow
  /-- Code 3: a pop with `sp = 0` (R212).  Raised by `execRet` only.  Safe: the spec's own fault. -/
  | stackUnderflow
  /-- Code 4: an access with a byte at address N or beyond (R213).  Raised by the fetch only; an image load
  meets the same bound and is refused instead (R186).  Safe: the spec's own fault. -/
  | memoryOutOfBounds
  deriving DecidableEq, Repr

/-- Why the model gives no move. -/
inductive Refusal where
  /-- The instruction has no meaning yet.  No arm of `exec` raises it: every instruction has its meaning. -/
  | notModelled (mnemonic : String)
  /-- A `LoadImage` at a time the spec gives it no move: after the first `Cycle`, or after an image has been
  loaded (R186, R194, decision D21).  Raised by `System.perform` only, never by `step` or `exec`.  Unsafe only
  against a host that breaks that contract (the spec's blind spot "reload while running"); log entry 9. -/
  | imageOutOfContract
  deriving DecidableEq, Repr

/-- The record a fault latches: its cause, the address the instruction was fetched from, and the word, where
one was fetched (R37, R214). -/
structure FaultRecord where
  /-- Which of the four faults. -/
  cause : Fault
  /-- The value of `pc` when the cycle began. -/
  fpc : Addr
  /-- The fetched word; `none` when the fetch itself faulted (R213). -/
  op : Option Word
  deriving DecidableEq, Repr

/-- Memory as the list of the bytes that differ from their reset contents, addresses strictly rising.  An
address not listed reads as `resetByte` (Sys2Proof/Machine/Ops.lean), and `Memory.wf` there says the form. -/
abbrev Memory := List Host.Cell

/-- The display buffer: `W` columns of `H` pixels, `true` lit (R34).  A pixel is named by column and row. -/
abbrev Display (W H : Nat) := Vector (Vector Bool H) W

/-- The ten elements of R20 (`DT` and `ST` are one row of its table). -/
structure State where
  /-- `mem`, N bytes (R36). -/
  mem : Memory
  /-- `V[0]` to `V[15]`; `V[15]` is the flag register `VF` (R21, R22). -/
  v : Vector Byte 16
  /-- `I`, the index register (R24). -/
  i : Addr
  /-- `pc`, the program counter (R25). -/
  pc : Addr
  /-- `stack`, S return-address slots outside memory (R29). -/
  stack : Vector Addr Config.hw.stackCapacity
  /-- `sp`, the number of return addresses on the stack (R30). -/
  sp : Nat
  /-- `DT`, the delay timer (R32). -/
  dt : Byte
  /-- `ST`, the sound timer (R32). -/
  st : Byte
  /-- `disp`, the display buffer (R34). -/
  disp : Display Config.hw.displayW Config.hw.displayH
  /-- `key`, the key array (R35). -/
  key : Vector Bool Config.hw.keyCount
  /-- `FAULT`, the latch (R37). -/
  fault : Option FaultRecord
  deriving DecidableEq, Repr

/-- `Reset()`, R240, line for line, for any content of the key array after it: reset does not write `key`, which
is a free input of the launch, under no law (R42, decision D19). -/
def State.resetWithKeys (keys : Vector Bool Config.hw.keyCount) : State where
  mem := []
  v := Vector.replicate 16 0#8
  i := 0#16
  pc := BitVec.ofNat 16 Config.hw.programOrigin
  stack := Vector.replicate Config.hw.stackCapacity 0#16
  sp := 0
  dt := 0#8
  st := 0#8
  disp := Vector.replicate Config.hw.displayW (Vector.replicate Config.hw.displayH false)
  key := keys
  fault := none

/-- The machine right after reset.  DESIGN CHOICE (log entry 7, unsafe): the spec leaves the key array
unspecified at reset; this one state has every key up.  The host's reset operation (`Operation.reset`) takes
the array as its argument instead, and claims about runs quantify over it. -/
def State.reset : State := State.resetWithKeys (Vector.replicate Config.hw.keyCount false)

end Sys2Proof.Machine
end

