-- ==== Sys2Proof/Machine/Flags.lean ====
section
/-! DEFINITION. The arithmetic of 44_alu.md R158 and the one flag of the machine, `VF` (10_state.md R22).
Sums are computed in the natural numbers and narrowed at the end (00_scope.md R9). -/

namespace Sys2Proof.Machine

/-- A Boolean stored in a register: the byte 1 or 0 (R9). -/
def flagByte (b : Bool) : Byte := if b then 1#8 else 0#8

/-- The wrapped 8-bit sum `(a + b) mod 256` (R158). -/
def wrappedSum (a b : Byte) : Byte := BitVec.ofNat 8 ((a.toNat + b.toNat) % 256)

/-- The carry of an 8-bit addition: `a + b >= 256` (R155, R158). -/
def carryOut (a b : Byte) : Bool := decide (256 ≤ a.toNat + b.toNat)

/-- The decrement of a timer, saturating at 0 (R158, 50_cycle_and_host.md R187, R188). -/
def countDown (t : Byte) : Byte := if 0 < t.toNat then BitVec.ofNat 8 (t.toNat - 1) else 0#8

end Sys2Proof.Machine
end

