-- ==== Sys2Proof/Syntax.lean ====
section
/-! DEFINITION. The instructions: one constructor per row of spec/opcode_table.json (30_encoding.md R86).

An operand has the width of its field (R82, R84), so an instruction can name no register that does not
exist (10_state.md R21: "holds by construction") and no immediate or address outside its field. -/

namespace Sys2Proof

/-- The 15 instructions of R86, under the unique names of R85. -/
inductive Instr where
  /-- 0000, `NOP`: no-op / padding (R100). -/
  | nop
  /-- 00E0, `CLS`: clear display (R101). -/
  | cls
  /-- 00EE, `RET`: return from subroutine (R112). -/
  | ret
  /-- 1nnn, `JP nnn`: jump (R113). -/
  | jp (nnn : Addr12)
  /-- 2nnn, `CALL nnn`: call subroutine (R114). -/
  | call (nnn : Addr12)
  /-- 3xkk, `SE Vx,kk`: skip if register equal to immediate (R130). -/
  | seImm (x : RegNum) (kk : Byte)
  /-- 4xkk, `SNE Vx,kk`: skip if register not equal to immediate (R131). -/
  | sneImm (x : RegNum) (kk : Byte)
  /-- 5xy0, `SE Vx,Vy`: skip if registers equal (R132). -/
  | seReg (x y : RegNum)
  /-- 6xkk, `LD Vx,kk`: load immediate (R140). -/
  | ldImm (x : RegNum) (kk : Byte)
  /-- 7xkk, `ADD Vx,kk`: add immediate (R141). -/
  | addImm (x : RegNum) (kk : Byte)
  /-- 8xy0, `LD Vx,Vy`: move (R151). -/
  | ldReg (x y : RegNum)
  /-- 8xy1, `OR Vx,Vy`: bitwise or (R152). -/
  | orReg (x y : RegNum)
  /-- 8xy2, `AND Vx,Vy`: bitwise and (R153). -/
  | andReg (x y : RegNum)
  /-- 8xy3, `XOR Vx,Vy`: bitwise xor (R154). -/
  | xorReg (x y : RegNum)
  /-- 8xy4, `ADD Vx,Vy`: add with carry out (R155). -/
  | addReg (x y : RegNum)
  deriving DecidableEq, Repr

/-- The four instruction formats of R83. -/
inductive Format where
  /-- All bits fixed: 0000, 00E0, 00EE. -/
  | z
  /-- An address: 1nnn, 2nnn. -/
  | a
  /-- A register and an immediate: 3xkk, 4xkk, 6xkk, 7xkk. -/
  | i
  /-- Two registers: 5xy0, 8xy0 to 8xy4. -/
  | r
  deriving DecidableEq, Repr

/-- The widths of the operands of a format, from the word's most significant bit down (R83). -/
def Format.widths : Format → List Nat
  | .z => []
  | .a => [12]
  | .i => [4, 8]
  | .r => [4, 4]

/-- The format of each instruction (R83). -/
def Instr.format : Instr → Format
  | .nop | .cls | .ret => .z
  | .jp _ | .call _ => .a
  | .seImm _ _ | .sneImm _ _ | .ldImm _ _ | .addImm _ _ => .i
  | .seReg _ _ | .ldReg _ _ | .orReg _ _ | .andReg _ _ | .xorReg _ _ | .addReg _ _ => .r

/-- The unique name of each instruction (R85, R93): the `mnemonic` of its row in opcode_table.json. -/
def Instr.mnemonic : Instr → String
  | .nop => "NOP"
  | .cls => "CLS"
  | .ret => "RET"
  | .jp _ => "JP"
  | .call _ => "CALL"
  | .seImm _ _ => "SE_IMM"
  | .sneImm _ _ => "SNE_IMM"
  | .seReg _ _ => "SE_REG"
  | .ldImm _ _ => "LD_IMM"
  | .addImm _ _ => "ADD_IMM"
  | .ldReg _ _ => "LD_REG"
  | .orReg _ _ => "OR"
  | .andReg _ _ => "AND"
  | .xorReg _ _ => "XOR"
  | .addReg _ _ => "ADD_REG"

/-- The operands of an instruction with the width of the field each stands in (R82, R83), in the order of
the word from its most significant bit down. -/
def Instr.operands : Instr → List (Nat × Nat)
  | .nop | .cls | .ret => []
  | .jp nnn | .call nnn => [(12, nnn.toNat)]
  | .seImm x kk | .sneImm x kk | .ldImm x kk | .addImm x kk => [(4, x.toNat), (8, kk.toNat)]
  | .seReg x y | .ldReg x y | .orReg x y | .andReg x y | .xorReg x y | .addReg x y =>
    [(4, x.toNat), (4, y.toNat)]

end Sys2Proof
end

