-- ==== Sys2Proof/Decode.lean ====
section
/-! DEFINITION. Decoding and encoding (30_encoding.md R80 to R93, 20_memory.md R56).

`decode` is a pure, total function of the 16-bit word (R85): it does not look at the state.  A word that
matches no pattern is rejected under its own name (R88, R170).  `decodeBytes` is the same on a list of
bytes, two bytes a word in the configuration's order. -/

namespace Sys2Proof

/-- Why bytes are not an instruction. -/
inductive DecodeReject where
  /-- The word matches none of the 15 patterns of R86 (R88, R170). -/
  | unimplemented (op : Word)
  /-- Fewer than the two bytes of a word are there (R80). -/
  | truncated (got : Nat)
  deriving DecidableEq, Repr

/-! ### The fields of the word (R8, R82) -/

/-- `d1 = op[15:12]`, the family selector. -/
def fieldD1 (op : Word) : BitVec 4 := op.extractLsb' 12 4

/-- `d2 = op[11:8]`. -/
def fieldD2 (op : Word) : BitVec 4 := op.extractLsb' 8 4

/-- `d3 = op[7:4]`. -/
def fieldD3 (op : Word) : BitVec 4 := op.extractLsb' 4 4

/-- `d4 = op[3:0]`. -/
def fieldD4 (op : Word) : BitVec 4 := op.extractLsb' 0 4

/-- `kk = op[7:0]`. -/
def fieldKk (op : Word) : Byte := op.extractLsb' 0 8

/-- `nnn = op[11:0]`. -/
def fieldNnn (op : Word) : Addr12 := op.extractLsb' 0 12

/-- R85, line for line: `x := d2`, `y := d3`. -/
def decode (op : Word) : Except DecodeReject Instr :=
  let d1 := fieldD1 op
  let d4 := fieldD4 op
  let x := fieldD2 op
  let y := fieldD3 op
  let kk := fieldKk op
  let nnn := fieldNnn op
  if op = 0x0000#16 then .ok .nop
  else if op = 0x00E0#16 then .ok .cls
  else if op = 0x00EE#16 then .ok .ret
  else if d1 = 1#4 then .ok (.jp nnn)
  else if d1 = 2#4 then .ok (.call nnn)
  else if d1 = 3#4 then .ok (.seImm x kk)
  else if d1 = 4#4 then .ok (.sneImm x kk)
  else if d1 = 5#4 ∧ d4 = 0#4 then .ok (.seReg x y)
  else if d1 = 6#4 then .ok (.ldImm x kk)
  else if d1 = 7#4 then .ok (.addImm x kk)
  else if d1 = 8#4 ∧ d4 = 0#4 then .ok (.ldReg x y)
  else if d1 = 8#4 ∧ d4 = 1#4 then .ok (.orReg x y)
  else if d1 = 8#4 ∧ d4 = 2#4 then .ok (.andReg x y)
  else if d1 = 8#4 ∧ d4 = 3#4 then .ok (.xorReg x y)
  else if d1 = 8#4 ∧ d4 = 4#4 then .ok (.addReg x y)
  else .error (.unimplemented op)

/-- The word of an instruction, digit by digit from the patterns of R83 and R91. -/
def encode : Instr → Word
  | .nop => 0x0000#16
  | .cls => 0x00E0#16
  | .ret => 0x00EE#16
  | .jp nnn => 0x1#4 ++ nnn
  | .call nnn => 0x2#4 ++ nnn
  | .seImm x kk => 0x3#4 ++ x ++ kk
  | .sneImm x kk => 0x4#4 ++ x ++ kk
  | .seReg x y => 0x5#4 ++ x ++ y ++ 0x0#4
  | .ldImm x kk => 0x6#4 ++ x ++ kk
  | .addImm x kk => 0x7#4 ++ x ++ kk
  | .ldReg x y => 0x8#4 ++ x ++ y ++ 0x0#4
  | .orReg x y => 0x8#4 ++ x ++ y ++ 0x1#4
  | .andReg x y => 0x8#4 ++ x ++ y ++ 0x2#4
  | .xorReg x y => 0x8#4 ++ x ++ y ++ 0x3#4
  | .addReg x y => 0x8#4 ++ x ++ y ++ 0x4#4

/-! ### The opcode table as data (R86, R93) -/

/-- One row of R86: a word `op` is the instruction exactly when `op & mask = pattern`. -/
structure OpcodeRow where
  mnemonic : String
  pattern : Word
  mask : Word
  deriving DecidableEq, Repr

/-- The 15 rows of R86, in the table's order. -/
def opcodeTable : List OpcodeRow :=
  [⟨"NOP", 0x0000#16, 0xFFFF#16⟩, ⟨"CLS", 0x00E0#16, 0xFFFF#16⟩, ⟨"RET", 0x00EE#16, 0xFFFF#16⟩,
   ⟨"JP", 0x1000#16, 0xF000#16⟩, ⟨"CALL", 0x2000#16, 0xF000#16⟩, ⟨"SE_IMM", 0x3000#16, 0xF000#16⟩,
   ⟨"SNE_IMM", 0x4000#16, 0xF000#16⟩, ⟨"SE_REG", 0x5000#16, 0xF00F#16⟩,
   ⟨"LD_IMM", 0x6000#16, 0xF000#16⟩, ⟨"ADD_IMM", 0x7000#16, 0xF000#16⟩] ++
  [⟨"LD_REG", 0x8000#16, 0xF00F#16⟩, ⟨"OR", 0x8001#16, 0xF00F#16⟩, ⟨"AND", 0x8002#16, 0xF00F#16⟩,
   ⟨"XOR", 0x8003#16, 0xF00F#16⟩, ⟨"ADD_REG", 0x8004#16, 0xF00F#16⟩]

/-- The word `op` matches the row (R86). -/
def OpcodeRow.hits (r : OpcodeRow) (op : Word) : Bool := (op &&& r.mask) == r.pattern

/-! ### Bytes (R56, R81) -/

/-- The word made of the byte at the lower address and the byte at the higher one (R56). -/
def assembleWord : FetchOrder → Byte → Byte → Word
  | .highFirst, b0, b1 => b0 ++ b1
  | .lowFirst, b0, b1 => b1 ++ b0

/-- The two bytes of a word in address order: the inverse of `assembleWord` (R81). -/
def wordBytes (o : FetchOrder) (op : Word) : Byte × Byte :=
  match o with
  | .highFirst => (op.extractLsb' 8 8, op.extractLsb' 0 8)
  | .lowFirst => (op.extractLsb' 0 8, op.extractLsb' 8 8)

/-- The instruction at the head of a list of bytes, with the bytes after it; total on every list. -/
def decodeBytes (o : FetchOrder) : List Byte → Except DecodeReject (Instr × List Byte)
  | b0 :: b1 :: rest =>
    match decode (assembleWord o b0 b1) with
    | .ok i => .ok (i, rest)
    | .error r => .error r
  | [_] => .error (.truncated 1)
  | [] => .error (.truncated 0)

/-- The word that the opcode table numbers as the `nbits` low bits of `w`; every bit above them is 0. -/
def tableWord (nbits w : Nat) : Word := BitVec.ofNat 16 (w % 2 ^ nbits)

/-- The instruction the decoder reads from a word of the opcode table, laid out in memory order. -/
def decodeTableWord (nbits w : Nat) : Option Instr :=
  let bytes := wordBytes Config.hw.fetchOrder (tableWord nbits w)
  match decodeBytes Config.hw.fetchOrder [bytes.1, bytes.2] with
  | .ok (i, _) => some i
  | .error _ => none

end Sys2Proof
end

