-- ==== Sys2Proof/Machine/Ops.lean ====
section
/-! DEFINITION. The named operations over memory, registers, stack and display that the meanings share, the
fetch, and raising a fault.  Operations that depend on a size or on an order take the configuration, or the
size, as an argument. -/

namespace Sys2Proof.Machine

/-! ### Memory (20_memory.md R50 to R63) -/

/-- What a byte of memory holds after reset (R42, R52): the glyph table in the low part, zero elsewhere. -/
def resetByte (c : Config) (a : Nat) : Byte :=
  if c.glyphBase ≤ a ∧ a < c.glyphBase + c.glyphLen then c.glyphTable.getD (a - c.glyphBase) 0#8 else 0#8

/-- `mem[a]`: the listed byte, or the reset contents. -/
def Memory.get (c : Config) : Memory → Nat → Byte
  | [], a => resetByte c a
  | (k, x) :: rest, a => if a = k then x else Memory.get c rest a

/-- A cell in front of a list, left out where it holds what an unlisted address reads as. -/
def Memory.cons (c : Config) (a : Nat) (b : Byte) (rest : Memory) : Memory :=
  if b = resetByte c a then rest else (a, b) :: rest

/-- `mem[a] <- b`, keeping the canonical form. -/
def Memory.set (c : Config) : Memory → Nat → Byte → Memory
  | [], a, b => Memory.cons c a b []
  | (k, x) :: rest, a, b =>
    if a < k then Memory.cons c a b ((k, x) :: rest)
    else if a = k then Memory.cons c a b rest
    else (k, x) :: Memory.set c rest a b

/-- `mem[a+j] <- bytes[j]` for every j, in ascending order. -/
def Memory.setBytes (c : Config) : Memory → Nat → List Byte → Memory
  | m, _, [] => m
  | m, a, b :: bs => Memory.setBytes c (Memory.set c m a b) (a + 1) bs

/-- The canonical form from address `lo` up: addresses strictly rising and below N, no byte equal to the reset
contents. -/
def Memory.wfFrom (c : Config) : Nat → Memory → Bool
  | _, [] => true
  | lo, (k, x) :: rest =>
    decide (lo ≤ k) && decide (k < c.memSize) && decide (x ≠ resetByte c k) && Memory.wfFrom c (k + 1) rest

/-- The canonical form of memory: equal memories are equal lists. -/
def Memory.wf (c : Config) (m : Memory) : Bool := Memory.wfFrom c 0 m

/-- `MemRead(a, n)`, R57: the n bytes from `a` up, or `MemoryOutOfBounds`; an address is never reduced
modulo N (R59). -/
def memRead (c : Config) (m : Memory) (a n : Nat) : Except Fault (List Byte) :=
  if a + n > c.memSize then .error .memoryOutOfBounds
  else .ok ((List.range n).map fun j => Memory.get c m (a + j))

/-- `MemWrite(a, n, bytes)`, R58: nothing is written where some byte lies at N or beyond (R59). -/
def memWrite (c : Config) (m : Memory) (a : Nat) (bytes : List Byte) : Except Fault Memory :=
  if a + bytes.length > c.memSize then .error .memoryOutOfBounds
  else .ok (Memory.setBytes c m a bytes)

/-- The two bytes at `a` and `a + 1` as a word, in the configuration's order (R56). -/
def memWord (c : Config) (m : Memory) (a : Nat) : Word :=
  assembleWord c.fetchOrder (Memory.get c m a) (Memory.get c m (a + 1))

/-- The read half of `Fetch()`, R61: the word at `a`, or `MemoryOutOfBounds` where `a + 1 >= N` (R60). -/
def fetchWord (c : Config) (m : Memory) (a : Nat) : Except Fault Word :=
  match memRead c m a 2 with
  | .ok [b0, b1] => .ok (assembleWord c.fetchOrder b0 b1)
  | .ok _ => .error .memoryOutOfBounds
  | .error r => .error r

/-! ### The elements of the state -/

/-- The state with another program counter. -/
def State.setPc (s : State) (a : Addr) : State := { s with pc := a }

/-- The state with another call stack and stack pointer. -/
def State.setStack (s : State) (stack : Vector Addr Config.hw.stackCapacity) (sp : Nat) : State :=
  { s with stack := stack, sp := sp }

/-- The state with another memory. -/
def State.setMem (s : State) (m : Memory) : State := { s with mem := m }

/-- The state with another display. -/
def State.setDisp (s : State) (d : Display Config.hw.displayW Config.hw.displayH) : State :=
  { s with disp := d }

/-- The state with another delay timer. -/
def State.setDt (s : State) (t : Byte) : State := { s with dt := t }

/-- The state with another sound timer. -/
def State.setSt (s : State) (t : Byte) : State := { s with st := t }

/-- The state with another key array. -/
def State.setKey (s : State) (k : Vector Bool Config.hw.keyCount) : State := { s with key := k }

/-- The state with another content of the fault latch. -/
def State.setFault (s : State) (f : Option FaultRecord) : State := { s with fault := f }

/-- `V[r]`, read (R10, R21). -/
def State.reg (s : State) (r : RegNum) : Byte := s.v[r.toNat]

/-- `V[r] <- b` (R10, R21): every register is a full cell, none is hardwired. -/
def State.setReg (s : State) (r : RegNum) (b : Byte) : State := { s with v := s.v.set r.toNat b }

/-- `mem[a]` of this hardware, one byte. -/
def State.byteAt (s : State) (a : Nat) : Byte := Memory.get Config.hw s.mem a

/-- The word whose first byte is at `a`, in this hardware's order (R56). -/
def State.wordAt (s : State) (a : Nat) : Word := memWord Config.hw s.mem a

/-- `stack[j]`.  A number that names no slot reads as 0; no run asks for one (log entry 10). -/
def State.slot (s : State) (j : Nat) : Addr := s.stack[j]?.getD 0#16

/-- `disp[c,r]` (R34); off the grid there is no pixel. -/
def State.pixel (s : State) (c r : Nat) : Option Bool := s.disp[c]?.bind fun column => column[r]?

/-! ### The call stack (41_control_flow.md R110, R111), for any capacity -/

/-- `Push(v)`, R110: the value is stored at `sp`, or `StackOverflow` and nothing is stored. -/
def pushSlot {S : Nat} (stack : Vector Addr S) (sp : Nat) (v : Addr) : Except Fault (Vector Addr S × Nat) :=
  if h : sp < S then .ok (stack.set sp v h, sp + 1) else .error .stackOverflow

/-- `Pop()`, R111: `sp` is decremented and the slot there is returned, its value kept; or `StackUnderflow`.
Above the capacity, where no run is, the value read is 0 (log entry 10). -/
def popSlot {S : Nat} (stack : Vector Addr S) (sp : Nat) : Except Fault (Addr × Nat) :=
  if 0 < sp then .ok (stack[sp - 1]?.getD 0#16, sp - 1) else .error .stackUnderflow

/-! ### The display (40_system_display.md R101), for any size -/

/-- Every pixel false. -/
def clearDisplay (W H : Nat) : Display W H := Vector.replicate W (Vector.replicate H false)

/-! ### Faults (60_exceptions.md R210 to R216) -/

/-- The fault codes of R210 to R213 (decision D13: labels only). -/
def Fault.code : Fault → Nat
  | .unimplementedOpcode => 1
  | .stackOverflow => 2
  | .stackUnderflow => 3
  | .memoryOutOfBounds => 4

/-- `raise C(...)`, R214, the whole of trap entry in this hardware: the latch is set and nothing else is saved or
changed; there is no handler to go to.  There is no return from a fault (R220): only `Reset` clears the latch. -/
def raise (cause : Fault) (fpc : Addr) (op : Option Word) (s : State) : State :=
  s.setFault (some ⟨cause, fpc, op⟩)

/-- The fault of an instruction in its execute half (R215).  The instruction sees `pc = fpc + 2` (R25), so
`fpc` is `pc - 2`, and the word is the instruction's own encoding (R211, R212; log entry 8). -/
def raiseInExecute (cause : Fault) (instr : Instr) (s : State) : State :=
  raise cause (s.pc - 2#16) (some (encode instr)) s

/-! ### Fetch (20_memory.md R61) and the program counter -/

/-- `pc + 2` modulo 65536: sequential execution and a taken skip (R25, R27). -/
def State.advance (s : State) : State := s.setPc (s.pc + 2#16)

/-- `Fetch()`, R61: the word at `pc`, with `pc` advanced by 2 and nothing else changed; out of range it
raises, and `pc` is not advanced (R60). -/
def fetch (s : State) : Except Fault (Word × State) :=
  match fetchWord Config.hw s.mem s.pc.toNat with
  | .ok op => .ok (op, s.advance)
  | .error r => .error r

/-- The state with the word `op` stored at its program counter, so that the next fetch reads it.  A latched
fault is cleared and a program counter that no fetch can use is moved to the program origin, since a fetch
needs both (R60, R181). -/
def placeWord (op : Word) (s : State) : State :=
  let at_ := if s.pc.toNat + 1 < Config.hw.memSize then s.pc.toNat else Config.hw.programOrigin
  let bytes := wordBytes Config.hw.fetchOrder op
  ((s.setMem (Memory.setBytes Config.hw s.mem at_ [bytes.1, bytes.2])).setPc (BitVec.ofNat 16 at_)).setFault none

end Sys2Proof.Machine
end

