-- ==== Sys2Proof/Machine/Operands.lean ====
section
/-! DEFINITION. The operand forms of 30_encoding.md R84 and the registers each instruction names
(10_state.md R23).  A register operand is read by `State.reg` and written by `State.setReg`; `kk` is used as it
stands; `nnn` is an absolute address.  There is no addressing mode (20_memory.md R70). -/

namespace Sys2Proof.Machine

/-- `zext_16(nnn)`: the target of `JP` and `CALL`, an absolute byte address (R84). -/
def target (nnn : Addr12) : Addr := nnn.zeroExtend 16

/-- R23, column "reads": the general registers an instruction reads. -/
def regsRead : Instr → List RegNum
  | .nop | .cls | .ret | .jp _ | .call _ => []
  | .seImm x _ | .sneImm x _ | .addImm x _ => [x]
  | .ldImm _ _ => []
  | .ldReg _ y => [y]
  | .seReg x y | .orReg x y | .andReg x y | .xorReg x y | .addReg x y => [x, y]

/-- R23, column "writes": the general registers an instruction writes. -/
def regsWritten : Instr → List RegNum
  | .nop | .cls | .ret | .jp _ | .call _ => []
  | .seImm _ _ | .sneImm _ _ | .seReg _ _ => []
  | .ldImm x _ | .addImm x _ => [x]
  | .ldReg x _ | .orReg x _ | .andReg x _ | .xorReg x _ => [x]
  | .addReg x _ => [x, flagReg]

end Sys2Proof.Machine
end

