-- ==== Sys2Proof/Machine/Alu.lean ====
section
/-! DEFINITION. The register-to-register instructions (44_alu.md).  Both operands are read before anything is
written (R150); only `ADD Vx,Vy` writes `VF` as a side effect (R157). -/

namespace Sys2Proof.Machine

/-- `LD Vx,Vy`, R151. -/
def execLdReg (x y : RegNum) (s : State) : Host.Outcome State Fault Refusal :=
  .next (s.setReg x (s.reg y))

/-- `OR Vx,Vy`, R152. -/
def execOrReg (x y : RegNum) (s : State) : Host.Outcome State Fault Refusal :=
  .next (s.setReg x (s.reg x ||| s.reg y))

/-- `AND Vx,Vy`, R153. -/
def execAndReg (x y : RegNum) (s : State) : Host.Outcome State Fault Refusal :=
  .next (s.setReg x (s.reg x &&& s.reg y))

/-- `XOR Vx,Vy`, R154. -/
def execXorReg (x y : RegNum) (s : State) : Host.Outcome State Fault Refusal :=
  .next (s.setReg x (s.reg x ^^^ s.reg y))

/-- `ADD Vx,Vy`, R155: the sum is written first and the carry second, so with x = 15 the carry remains (R156). -/
def execAddReg (x y : RegNum) (s : State) : Host.Outcome State Fault Refusal :=
  .next ((s.setReg x (wrappedSum (s.reg x) (s.reg y))).setReg flagReg (flagByte (carryOut (s.reg x) (s.reg y))))

end Sys2Proof.Machine
end

