-- ==== Sys2Proof/Machine/Control.lean ====
section
/-! DEFINITION. `RET`, `JP` and `CALL` (41_control_flow.md).  Entered with `pc = fpc + 2`. -/

namespace Sys2Proof.Machine

/-- `RET`, R112: the popped address is used as it is; on an empty stack `StackUnderflow`, with `pc` left at
`fpc + 2` (60_exceptions.md R212, R215). -/
def execRet (s : State) : Host.Outcome State Fault Refusal :=
  match popSlot s.stack s.sp with
  | .ok (a, sp) => .next ((s.setStack s.stack sp).setPc a)
  | .error r => .next (raiseInExecute r .ret s)

/-- `JP nnn`, R113: the target is not checked when the jump executes. -/
def execJp (nnn : Addr12) (s : State) : Host.Outcome State Fault Refusal :=
  .next (s.setPc (target nnn))

/-- `CALL nnn`, R114: the push of `pc` comes first, so on a full stack `StackOverflow`, with no jump
(60_exceptions.md R211, R215). -/
def execCall (nnn : Addr12) (s : State) : Host.Outcome State Fault Refusal :=
  match pushSlot s.stack s.sp s.pc with
  | .ok (stack, sp) => .next ((s.setStack stack sp).setPc (target nnn))
  | .error r => .next (raiseInExecute r (.call nnn) s)

end Sys2Proof.Machine
end

