-- ==== Sys2Proof/Machine/Immediate.lean ====
section
/-! DEFINITION. The register-immediate instructions (43_immediate.md).  Neither writes `VF` as a side
effect. -/

namespace Sys2Proof.Machine

/-- `LD Vx,kk`, R140. -/
def execLdImm (x : RegNum) (kk : Byte) (s : State) : Host.Outcome State Fault Refusal :=
  .next (s.setReg x kk)

/-- `ADD Vx,kk`, R141: the carry is lost; with x = 15 the flag register is the destination like any other. -/
def execAddImm (x : RegNum) (kk : Byte) (s : State) : Host.Outcome State Fault Refusal :=
  .next (s.setReg x (wrappedSum (s.reg x) kk))

end Sys2Proof.Machine
end

