-- ==== Sys2Proof/Machine/Skip.lean ====
section
/-! DEFINITION. The conditional skips (42_skip.md).  Entered with `pc = fpc + 2`; a taken skip adds 2 more,
whatever the skipped word is. -/

namespace Sys2Proof.Machine

/-- The next instruction is passed over where the condition holds (R133). -/
def skipIf (condition : Bool) (s : State) : State := if condition then s.advance else s

/-- `SE Vx,kk`, R130. -/
def execSeImm (x : RegNum) (kk : Byte) (s : State) : Host.Outcome State Fault Refusal :=
  .next (skipIf (s.reg x == kk) s)

/-- `SNE Vx,kk`, R131. -/
def execSneImm (x : RegNum) (kk : Byte) (s : State) : Host.Outcome State Fault Refusal :=
  .next (skipIf (s.reg x != kk) s)

/-- `SE Vx,Vy`, R132. -/
def execSeReg (x y : RegNum) (s : State) : Host.Outcome State Fault Refusal :=
  .next (skipIf (s.reg x == s.reg y) s)

end Sys2Proof.Machine
end

