-- ==== Sys2Proof/Machine/SystemDisplay.lean ====
section
/-! DEFINITION. `NOP` and `CLS` (40_system_display.md).  Every meaning is entered with the fetch done, so
that `pc` already equals `fpc + 2` (10_state.md R25). -/

namespace Sys2Proof.Machine

/-- `NOP`, R100: nothing. -/
def execNop (s : State) : Host.Outcome State Fault Refusal := .next s

/-- `CLS`, R101: every pixel false, whatever the grid held. -/
def execCls (s : State) : Host.Outcome State Fault Refusal :=
  .next (s.setDisp (clearDisplay Config.hw.displayW Config.hw.displayH))

end Sys2Proof.Machine
end

