-- ==== Sys2Proof/Machine/Step.lean ====
section
/-! DEFINITION. One step of the machine is one `Cycle()` (50_cycle_and_host.md R180). -/

namespace Sys2Proof.Machine

/-- `Cycle()`, R180: nothing while a fault is latched (R181); else one fetch, one decode, one execute, in the
order of checks of 60_exceptions.md R218.  A fault ends the cycle with the latch set (R214): the answer is the
state R215 gives, and what the cycle returns to its caller is read off that state (`cycleResponse`). -/
def step (s : State) : Host.Outcome State Fault Refusal :=
  match s.fault with
  | some _ => .next s
  | none =>
    match fetch s with
    | .error r => .next (raise r s.pc none s)
    | .ok (op, s') =>
      match decode op with
      | .error _ => .next (raise .unimplementedOpcode s.pc (some op) s')
      | .ok i => exec i s'

/-- The state with the instruction whose bits the opcode table numbers as `w` stored where the next step
fetches, so that `step` runs exactly it. -/
def State.withFetchWord (s : State) (nbits w : Nat) : State := placeWord (tableWord nbits w) s

end Sys2Proof.Machine
end

