-- ==== Sys2Proof/Machine/HostOps.lean ====
section
/-! DEFINITION. The effect of each host operation on the machine (50_cycle_and_host.md R186 to R190).
`Reset()` is `State.resetWithKeys` (Sys2Proof/Machine/State.lean) and `Cycle()` is `step`
(Sys2Proof/Machine/Step.lean). -/

namespace Sys2Proof.Machine

/-- `LoadImage(bytes)` on memory, R186, for any configuration: the bytes from `PROGRAM_ORIGIN` up; an image
that does not fit is refused whole (`none`), nothing written and no fault raised. -/
def loadImage (c : Config) (bytes : List Byte) (m : Memory) : Option Memory :=
  match memWrite c m c.programOrigin bytes with
  | .ok m' => some m'
  | .error _ => none

/-- `LoadImage(bytes)` on the machine, R186; it does not touch `pc`. -/
def State.loadImage (bytes : List Byte) (s : State) : Option State :=
  (Machine.loadImage Config.hw bytes s.mem).map s.setMem

/-- `TickDelay()`, R187. -/
def State.tickDelay (s : State) : State := s.setDt (countDown s.dt)

/-- `TickSound()`, R188. -/
def State.tickSound (s : State) : State := s.setSt (countDown s.st)

/-- `KeyWrite(keys)`, R189: the whole array is replaced. -/
def State.keyWrite (keys : Vector Bool Config.hw.keyCount) (s : State) : State := s.setKey keys

/-- `DisplayRead()`, R190: the whole grid; the machine is not changed. -/
def State.displayRead (s : State) : Display Config.hw.displayW Config.hw.displayH := s.disp

end Sys2Proof.Machine
end

