-- ==== Sys2Proof/Machine/System.lean ====
section
/-! DEFINITION. The host and the core together (50_cycle_and_host.md R183 to R194): a run is a sequence of
operations, each atomic and applied to the state the one before it left (R184), in whatever order the host
chooses (R191).  What the contract says of the host is not state of the hardware, so it stands beside
`State`, in `Phase`. -/

namespace Sys2Proof.Machine

/-- How far a launch has come (R186, R194, 70_reset_and_hazards.md R242). -/
inductive Phase where
  /-- After `Reset`, no image loaded, no cycle run. -/
  | built
  /-- An image has been loaded, no cycle run. -/
  | loaded
  /-- A cycle has been run since the last `Reset`. -/
  | running
  deriving DecidableEq, Repr

/-- The operations of R185. -/
inductive Operation where
  /-- `Reset()`, R240.  Its argument is what the key array holds after it, a free input under no law
  (10_state.md R42, decision D19; log entry 7). -/
  | reset (keys : Vector Bool Config.hw.keyCount)
  /-- `LoadImage(bytes)`, R186. -/
  | loadImage (bytes : List Byte)
  /-- `KeyWrite(keys)`, R189. -/
  | keyWrite (keys : Vector Bool Config.hw.keyCount)
  /-- `TickDelay()`, R187. -/
  | tickDelay
  /-- `TickSound()`, R188. -/
  | tickSound
  /-- `DisplayRead()`, R190. -/
  | displayRead
  /-- `Cycle()`, R180. -/
  | cycle
  deriving DecidableEq, Repr

/-- What an operation returns to the host. -/
inductive Response where
  /-- `Ok`. -/
  | ok
  /-- `Refused`: an image that does not fit (R186). -/
  | imageRefused
  /-- `Fault(FAULT)`: the cycle faulted, or the core was halted already (R180, R181). -/
  | fault (record : FaultRecord)
  /-- The grid (R190). -/
  | grid (pixels : Display Config.hw.displayW Config.hw.displayH)
  deriving DecidableEq, Repr

/-- The machine and how far its launch has come. -/
structure System where
  machine : State
  phase : Phase
  deriving DecidableEq, Repr

/-- What a cycle returns, read off the state it leaves: `Ok`, or `Fault` with the latched record (R180, R214). -/
def cycleResponse (s : State) : Response :=
  match s.fault with
  | none => .ok
  | some r => .fault r

/-- The machine after `Reset()` (R240, R242). -/
def launch (keys : Vector Bool Config.hw.keyCount) : System := ⟨State.resetWithKeys keys, .built⟩

/-- `LoadImage`, with the contract on when it may come: after `Reset`, once, before the first `Cycle` (R186,
R194).  At another time the spec gives it no move.  A refused image leaves the launch as it was. -/
def performLoad (bytes : List Byte) (y : System) : Host.Outcome (System × Response) Fault Refusal :=
  match y.phase with
  | .built =>
    match y.machine.loadImage bytes with
    | some s => .next (⟨s, .loaded⟩, .ok)
    | none => .next (y, .imageRefused)
  | .loaded => .refused .imageOutOfContract
  | .running => .refused .imageOutOfContract

/-- `Cycle` and what it returns (R180, R181). -/
def performCycle (y : System) : Host.Outcome (System × Response) Fault Refusal :=
  match step y.machine with
  | .next s => .next (⟨s, .running⟩, cycleResponse s)
  | .fault r => .fault r
  | .refused r => .refused r

/-- One operation of the host (R185): the system after it and what it returns. -/
def perform (o : Operation) (y : System) : Host.Outcome (System × Response) Fault Refusal :=
  match o with
  | .reset keys => .next (launch keys, .ok)
  | .loadImage bytes => performLoad bytes y
  | .keyWrite keys => .next (⟨y.machine.keyWrite keys, y.phase⟩, .ok)
  | .tickDelay => .next (⟨y.machine.tickDelay, y.phase⟩, .ok)
  | .tickSound => .next (⟨y.machine.tickSound, y.phase⟩, .ok)
  | .displayRead => .next (y, .grid y.machine.displayRead)
  | .cycle => performCycle y

/-- A sequence of operations (R184): the system after it, with what each operation returned, in order. -/
def runOperations : List Operation → System → Host.Outcome (System × List Response) Fault Refusal
  | [], y => .next (y, [])
  | o :: os, y =>
    match perform o y with
    | .next (y', r) =>
      match runOperations os y' with
      | .next (z, rs) => .next (z, r :: rs)
      | .fault f => .fault f
      | .refused f => .refused f
    | .fault f => .fault f
    | .refused f => .refused f

end Sys2Proof.Machine
end

