-- ==== Sys2Proof/WellFormed.lean ====
section
/-! DEFINITION. What must hold of a configuration (00_scope.md R7) and of an instruction (30_encoding.md
R82 to R84), as checks that compute.

The checks of R7 can fail, and Sys2Proof/Tests/Slice0.lean shows an ill-formed configuration that each
of them refuses.  The check of an instruction cannot fail: the widths of the fields are in the operand
types (10_state.md R21: "holds by construction"), which `Instr.wellFormed_all` in
Sys2Proof/Laws/Encoding.lean proves; there is no ill-formed term to refuse. -/

namespace Sys2Proof

/-- R7: `GLYPH_BASE = 0`. -/
def Config.glyphAtZero (c : Config) : Bool := c.glyphBase == 0

/-- R7: `GLYPH_BASE + GLYPH_LEN <= PROGRAM_ORIGIN`, so that an image cannot overwrite the glyph table. -/
def Config.glyphBelowOrigin (c : Config) : Bool := decide (c.glyphBase + c.glyphLen ≤ c.programOrigin)

/-- R7: `PROGRAM_ORIGIN + 2 <= MEM_SIZE`, so that the first fetch is in range. -/
def Config.firstFetchFits (c : Config) : Bool := decide (c.programOrigin + 2 ≤ c.memSize)

/-- R7: `MEM_SIZE <= 65532`, so that no reachable value of `pc` exceeds 16 bits. -/
def Config.pcCannotWrap (c : Config) : Bool := decide (c.memSize ≤ 65532)

/-- R7: `STACK_CAPACITY >= 1`. -/
def Config.hasStack (c : Config) : Bool := decide (1 ≤ c.stackCapacity)

/-- R7: `DISPLAY_W >= 1`. -/
def Config.hasColumns (c : Config) : Bool := decide (1 ≤ c.displayW)

/-- R7: `DISPLAY_H >= 1`. -/
def Config.hasRows (c : Config) : Bool := decide (1 ≤ c.displayH)

/-- R7: `KEY_COUNT >= 1`. -/
def Config.hasKeys (c : Config) : Bool := decide (1 ≤ c.keyCount)

/-- All the constraints of R7. -/
def Config.wellFormed (c : Config) : Bool :=
  c.glyphAtZero && c.glyphBelowOrigin && c.firstFetchFits && c.pcCannotWrap &&
    c.hasStack && c.hasColumns && c.hasRows && c.hasKeys

/-- Every operand fits the field it is encoded in (R82, R84). -/
def Instr.wellFormed (i : Instr) : Bool := i.operands.all fun o => decide (o.2 < 2 ^ o.1)

end Sys2Proof
end

