-- ==== Sys2Proof/Safety.lean ====
section
/-! DEFINITION. The terms in which claims about the machine are made: what an operation leaves unchanged,
which instruction the next cycle runs, when a run is halted or finished, and the invariants. -/

namespace Sys2Proof.Machine

/-! ### Frames -/

/-- The elements of the state, one name for each row of 10_state.md R20 (`DT` and `ST`, and `stack` and `sp`,
apart). -/
inductive Element where
  | mem | v | i | pc | stack | sp | dt | st | disp | key | fault
  deriving DecidableEq, Repr

/-- The element reads the same in both states.  Memory is compared byte by byte, the registers one by one. -/
def Unchanged (s t : State) : Element → Prop
  | .mem => ∀ a, t.byteAt a = s.byteAt a
  | .v => ∀ r, t.reg r = s.reg r
  | .i => t.i = s.i
  | .pc => t.pc = s.pc
  | .stack => ∀ j, t.slot j = s.slot j
  | .sp => t.sp = s.sp
  | .dt => t.dt = s.dt
  | .st => t.st = s.st
  | .disp => ∀ c r, t.pixel c r = s.pixel c r
  | .key => t.key = s.key
  | .fault => t.fault = s.fault

/-- No element but those named differs between the two states. -/
def OnlyChanges (es : List Element) (s t : State) : Prop := ∀ e, e ∉ es → Unchanged s t e

/-- No general register but those named differs between the two states. -/
def OnlyRegsChange (rs : List RegNum) (s t : State) : Prop := ∀ r, r ∉ rs → t.reg r = s.reg r

/-- What a cycle may read and write: everything but `I`, the timers, the display and the keys
(50_cycle_and_host.md R180). -/
def coreElements : List Element := [.mem, .v, .pc, .stack, .sp, .fault]

/-- Two states agree on everything a cycle reads. -/
def AgreeOnCore (s t : State) : Prop := ∀ e ∈ coreElements, Unchanged s t e

/-! ### Sequences of pushes and pops (41_control_flow.md R116), for any capacity -/

/-- The stack after pushing a list of values, with the number of pushes that overflowed. -/
def pushAll {S : Nat} : List Addr → Vector Addr S × Nat → (Vector Addr S × Nat) × Nat
  | [], k => (k, 0)
  | v :: vs, k =>
    match pushSlot k.1 k.2 v with
    | .ok k' => pushAll vs k'
    | .error _ => ((pushAll vs k).1, (pushAll vs k).2 + 1)

/-- The values that a number of pops return, the stack pointer after them, and the number that underflowed. -/
def popAll {S : Nat} (k : Vector Addr S) : Nat → Nat → List Addr × Nat × Nat
  | 0, sp => ([], sp, 0)
  | n + 1, sp =>
    match popSlot k sp with
    | .ok (v, sp') => (v :: (popAll k n sp').1, (popAll k n sp').2)
    | .error _ => ((popAll k n sp).1, (popAll k n sp).2.1, (popAll k n sp).2.2 + 1)

/-! ### What the next cycle does -/

/-- The core is not halted and both bytes at `pc` are in memory (20_memory.md R60). -/
def State.Fetches (s : State) : Prop := s.fault = none ∧ s.pc.toNat + 1 < Config.hw.memSize

/-- The next cycle runs the instruction `instr`: it is what the word at `pc` decodes to. -/
def State.Runs (s : State) (instr : Instr) : Prop :=
  s.Fetches ∧ decode (s.wordAt s.pc.toNat) = .ok instr

/-- The program has finished normally, R192: no fault, and the word at `pc` is a jump to `pc`. -/
def State.FinishedNormally (s : State) : Prop := ∃ nnn, s.Runs (.jp nnn) ∧ target nnn = s.pc

/-- The instruction's own check passes (60_exceptions.md R218, item 4): `CALL` needs a free slot, `RET` a live
one. -/
def State.StackAllows (s : State) : Instr → Prop
  | .call _ => s.sp < Config.hw.stackCapacity
  | .ret => 0 < s.sp
  | _ => True

/-! ### Invariants -/

/-- A latched fault tells the truth about the state it stopped in (60_exceptions.md R210 to R213, R215): the
record names the word at `fpc`, `pc` stands where the fault leaves it, and the cause is there. -/
def FaultIsTrue (s : State) : Option FaultRecord → Prop
  | none => True
  | some ⟨.memoryOutOfBounds, fpc, op⟩ => op = none ∧ s.pc = fpc ∧ Config.hw.memSize ≤ fpc.toNat + 1
  | some ⟨.unimplementedOpcode, fpc, op⟩ =>
    op = some (s.wordAt fpc.toNat) ∧ s.pc = fpc + 2#16 ∧ fpc.toNat + 1 < Config.hw.memSize ∧
      decode (s.wordAt fpc.toNat) = .error (.unimplemented (s.wordAt fpc.toNat))
  | some ⟨.stackOverflow, fpc, op⟩ =>
    op = some (s.wordAt fpc.toNat) ∧ s.pc = fpc + 2#16 ∧ fpc.toNat + 1 < Config.hw.memSize ∧
      (∃ nnn, decode (s.wordAt fpc.toNat) = .ok (.call nnn)) ∧ s.sp = Config.hw.stackCapacity
  | some ⟨.stackUnderflow, fpc, op⟩ =>
    op = some (s.wordAt fpc.toNat) ∧ s.pc = fpc + 2#16 ∧ fpc.toNat + 1 < Config.hw.memSize ∧
      decode (s.wordAt fpc.toNat) = .ok .ret ∧ s.sp = 0

/-- The invariant of the machine: what every cycle keeps. -/
structure State.Inv (s : State) : Prop where
  /-- Memory is in its canonical form, every listed address below N. -/
  mem_wf : Memory.wf Config.hw s.mem = true
  /-- `0 <= sp <= S` (10_state.md R31). -/
  sp_le : s.sp ≤ Config.hw.stackCapacity
  /-- A live return address is one that a `CALL` pushed: at most N (41_control_flow.md R112). -/
  live_le : ∀ j, j < s.sp → (s.slot j).toNat ≤ Config.hw.memSize
  /-- `pc` is at most N + 2 (10_state.md R27). -/
  pc_le : s.pc.toNat ≤ Config.hw.memSize + 2
  /-- The latch tells the truth. -/
  fault_true : FaultIsTrue s s.fault

/-- What no operation of this hardware ever changes after reset: `I` and both timers are 0, every pixel is
`false`, and memory below the program origin, the glyph table included, holds its reset contents (10_state.md
R24, R33, R34; 20_memory.md R53). -/
structure State.Untouched (s : State) : Prop where
  i_zero : s.i = 0#16
  dt_zero : s.dt = 0#8
  st_zero : s.st = 0#8
  dark : s.disp = clearDisplay Config.hw.displayW Config.hw.displayH
  low_mem : ∀ a, a < Config.hw.programOrigin → s.byteAt a = resetByte Config.hw a

/-- The invariant of machine and launch together: before the first cycle nothing is latched and `pc` stands at
the program origin. -/
structure System.Inv (y : System) : Prop where
  machine : y.machine.Inv
  fresh : y.phase ≠ .running →
    y.machine.fault = none ∧ y.machine.pc = BitVec.ofNat 16 Config.hw.programOrigin ∧ y.machine.sp = 0

end Sys2Proof.Machine
end

