-- ==== Sys2Proof/Certificates/Slice0/Obligations.lean ====
section
/-! DEFINITION. The statements for the provers, from the numbered rules of spec/.  Words used in them:
`OnlyChanges es s t` says that every element of the state but those in `es` reads the same in both states
(Sys2Proof/Safety.lean), memory byte by byte; a meaning is entered with `pc = fpc + 2` (10_state.md R25), which
`State.advance` makes. -/

open Sys2Proof Sys2Proof.Machine

/-! ### Encoding (30_encoding.md) -/

/-- Every instruction, with every operand at every value its field admits, is what its word decodes to, and
what its two bytes decode to in either byte order, the bytes after it left over (R80, R85). -/
def Obligations.DecodeOfEncode : Prop :=
  ∀ (i : Instr), i.wellFormed = true →
    decode (encode i) = .ok i ∧
    ∀ (o : FetchOrder) (rest : List Byte),
      decodeBytes o ((wordBytes o (encode i)).1 :: (wordBytes o (encode i)).2 :: rest) = .ok (i, rest)

/-- A word that decodes is the encoding of what it decodes to: no format has an unused bit (R83). -/
def Obligations.EncodeOfDecode : Prop :=
  ∀ (op : Word) (i : Instr), decode op = .ok i → encode i = op

/-- R91, the table mnemonic to word, with the numbers as it writes them, and the word stored high-order byte
first. -/
def Obligations.EncodingFollowsAssemblyTable : Prop :=
  (∀ i : Instr, (wordBytes Config.hw.fetchOrder (encode i)).1.toNat = (encode i).toNat / 256 ∧
    (wordBytes Config.hw.fetchOrder (encode i)).2.toNat = (encode i).toNat % 256) ∧
  ∀ (nnn : Addr12) (x y : RegNum) (kk : Byte),
    (encode .nop).toNat = 0x0000 ∧
    (encode .cls).toNat = 0x00E0 ∧
    (encode .ret).toNat = 0x00EE ∧
    (encode (.jp nnn)).toNat = 0x1000 + nnn.toNat ∧
    (encode (.call nnn)).toNat = 0x2000 + nnn.toNat ∧
    (encode (.seImm x kk)).toNat = 0x3000 + (x.toNat <<< 8) + kk.toNat ∧
    (encode (.sneImm x kk)).toNat = 0x4000 + (x.toNat <<< 8) + kk.toNat ∧
    (encode (.seReg x y)).toNat = 0x5000 + (x.toNat <<< 8) + (y.toNat <<< 4) ∧
    (encode (.ldImm x kk)).toNat = 0x6000 + (x.toNat <<< 8) + kk.toNat ∧
    (encode (.addImm x kk)).toNat = 0x7000 + (x.toNat <<< 8) + kk.toNat ∧
    (encode (.ldReg x y)).toNat = 0x8000 + (x.toNat <<< 8) + (y.toNat <<< 4) ∧
    (encode (.orReg x y)).toNat = 0x8001 + (x.toNat <<< 8) + (y.toNat <<< 4) ∧
    (encode (.andReg x y)).toNat = 0x8002 + (x.toNat <<< 8) + (y.toNat <<< 4) ∧
    (encode (.xorReg x y)).toNat = 0x8003 + (x.toNat <<< 8) + (y.toNat <<< 4) ∧
    (encode (.addReg x y)).toNat = 0x8004 + (x.toNat <<< 8) + (y.toNat <<< 4)

/-- R86: a word is an instruction exactly when it matches that instruction's row of the opcode table, every
instruction has a row, no two rows match the same word, and a word that matches none is unimplemented. -/
def Obligations.DecodeMatchesOpcodeTable : Prop :=
  (∀ (op : Word), ∀ r ∈ opcodeTable,
    (r.hits op = true ↔ ∃ i, decode op = .ok i ∧ i.mnemonic = r.mnemonic)) ∧
  (∀ (i : Instr), ∃ r ∈ opcodeTable, r.mnemonic = i.mnemonic) ∧
  (∀ (op : Word), opcodeTable.Pairwise fun r q => ¬ (r.hits op = true ∧ q.hits op = true)) ∧
  ∀ (op : Word), (∀ r ∈ opcodeTable, r.hits op = false) ↔ decode op = .error (.unimplemented op)

/-- R171: which words are unimplemented, by their digits (the counts of its table left out). -/
def Obligations.UnimplementedWordsExactly : Prop :=
  ∀ (op : Word),
    decode op = .error (.unimplemented op) ↔
      (fieldD1 op = 0#4 ∧ op ≠ 0x0000#16 ∧ op ≠ 0x00E0#16 ∧ op ≠ 0x00EE#16) ∨
      (fieldD1 op = 5#4 ∧ fieldD4 op ≠ 0#4) ∨
      (fieldD1 op = 8#4 ∧ 5 ≤ (fieldD4 op).toNat) ∨
      9 ≤ (fieldD1 op).toNat

/-- The document's own worked bytes (95_test_vectors.md S7, S8) and the example of R170, in this hardware's byte
order (R56). -/
def Obligations.WorkedBytesDecode : Prop :=
  decodeBytes Config.hw.fetchOrder [0x60#8, 0x05#8] = .ok (.ldImm 0#4 0x05#8, []) ∧
  decodeBytes Config.hw.fetchOrder [0x61#8, 0x03#8] = .ok (.ldImm 1#4 0x03#8, []) ∧
  decodeBytes Config.hw.fetchOrder [0x80#8, 0x14#8] = .ok (.addReg 0#4 1#4, []) ∧
  decodeBytes Config.hw.fetchOrder [0x22#8, 0x10#8] = .ok (.call 0x210#12, []) ∧
  decodeBytes Config.hw.fetchOrder [0x00#8, 0xEE#8] = .ok (.ret, []) ∧
  decodeBytes Config.hw.fetchOrder [0xA2#8, 0x2A#8] = .error (.unimplemented 0xA22A#16)

/-! ### Memory (20_memory.md), for every configuration -/

/-- R57, R59: a read of which some byte lies at N or beyond raises; any other gives the bytes in ascending
address order. -/
def Obligations.MemReadGivesBytesOrRaises : Prop :=
  ∀ (c : Config) (m : Memory) (a n : Nat),
    (c.memSize < a + n → memRead c m a n = .error .memoryOutOfBounds) ∧
    (a + n ≤ c.memSize → ∃ bytes, memRead c m a n = .ok bytes ∧ bytes.length = n ∧
      ∀ j, j < n → bytes[j]? = some (Memory.get c m (a + j)))

/-- R58, R59: a write of which some byte lies at N or beyond raises; any other stores the bytes and changes no
other byte. -/
def Obligations.MemWriteStoresOrRaises : Prop :=
  ∀ (c : Config) (m : Memory) (a : Nat) (bytes : List Byte), Memory.wf c m = true →
    (c.memSize < a + bytes.length → memWrite c m a bytes = .error .memoryOutOfBounds) ∧
    (a + bytes.length ≤ c.memSize → ∃ m', memWrite c m a bytes = .ok m' ∧
      (∀ j, j < bytes.length → bytes[j]? = some (Memory.get c m' (a + j))) ∧
      ∀ k, (k < a ∨ a + bytes.length ≤ k) → Memory.get c m' k = Memory.get c m k)

/-- Equal memories are equal data: two canonical lists that read the same at every address are the same list.
The canonical form is the model's own (log entry 11). -/
def Obligations.CanonicalMemoryIsExtensional : Prop :=
  ∀ (c : Config) (m m' : Memory), Memory.wf c m = true → Memory.wf c m' = true →
    (∀ a, Memory.get c m a = Memory.get c m' a) → m = m'

/-- R56 under either setting of `FETCH_ORDER` (decision D1), and the bound of R60: the word at `a`, as a
number, or `MemoryOutOfBounds`. -/
def Obligations.FetchOrderDecidesTheWord : Prop :=
  ∀ (c : Config) (m : Memory) (a : Nat),
    (a + 1 < c.memSize → ∃ op, fetchWord c m a = .ok op ∧
      op.toNat = match c.fetchOrder with
        | .highFirst => (Memory.get c m a).toNat * 256 + (Memory.get c m (a + 1)).toNat
        | .lowFirst => (Memory.get c m (a + 1)).toNat * 256 + (Memory.get c m a).toNat) ∧
    (c.memSize ≤ a + 1 → fetchWord c m a = .error .memoryOutOfBounds)

/-- R60, R61: `Fetch()` gives the word at `pc`, the byte there high-order, and advances `pc` by 2 with no other
effect; out of range it raises. -/
def Obligations.FetchReadsAndAdvances : Prop :=
  ∀ (s : State),
    (s.pc.toNat + 1 < Config.hw.memSize → ∃ op t, fetch s = .ok (op, t) ∧
      op.toNat = (s.byteAt s.pc.toNat).toNat * 256 + (s.byteAt (s.pc.toNat + 1)).toNat ∧
      t.pc.toNat = (s.pc.toNat + 2) % 65536 ∧ OnlyChanges [.pc] s t) ∧
    (Config.hw.memSize ≤ s.pc.toNat + 1 → fetch s = .error .memoryOutOfBounds)

/-- R27: under the constraints of R7 no addition to `pc` in a cycle wraps: from an address that can be fetched from,
the fetch's advance adds 2 as a plain number and leaves at most N, and a skip after it adds 2 more where it is taken
and leaves at most N + 2. -/
def Obligations.PcAdditionsDoNotWrap : Prop :=
  ∀ (c : Config) (s : State) (taken : Bool), c.wellFormed = true → s.pc.toNat + 1 < c.memSize →
    s.advance.pc.toNat = s.pc.toNat + 2 ∧ s.advance.pc.toNat ≤ c.memSize ∧
    (∀ op t, fetch s = .ok (op, t) → t.pc.toNat = s.pc.toNat + 2) ∧
    (skipIf taken s.advance).pc.toNat = s.pc.toNat + (if taken then 4 else 2) ∧
    (skipIf taken s.advance).pc.toNat ≤ c.memSize + 2

/-! ### The cycle (50_cycle_and_host.md R180 to R182) -/

/-- R180: a core that is not halted, at an address it can fetch from, runs the instruction that the word at
`pc` decodes to, on the state the fetch leaves: `pc` advanced by 2 and nothing else changed. -/
def Obligations.StepRunsDecodedInstruction : Prop :=
  ∀ (s : State) (i : Instr), s.fault = none → s.pc.toNat + 1 < Config.hw.memSize →
    decode (s.wordAt s.pc.toNat) = .ok i →
    ∃ s', step s = exec i s' ∧ s'.pc = s.pc + 2#16 ∧ OnlyChanges [.pc] s s' ∧ s' = { s with pc := s'.pc }

/-- R181: a cycle of a halted core changes nothing and returns the latched fault again; the host's other
operations are still accepted. -/
def Obligations.HaltedCoreStaysHalted : Prop :=
  ∀ (y : System) (r : FaultRecord), y.machine.fault = some r →
    step y.machine = .next y.machine ∧
    (∃ y', perform .cycle y = .next (y', .fault r) ∧ y'.machine = y.machine) ∧
    ∀ o : Operation, o ≠ .cycle → (∀ bytes, o ≠ .loadImage bytes) → ∃ z, perform o y = .next z

/-- R11: a cycle always runs to completion: every state has a next state, whatever memory holds. -/
def Obligations.EveryCycleCompletes : Prop :=
  (∀ (i : Instr) (s : State), ∃ t, exec i s = .next t) ∧
  (∀ (s : State), ∃ t, step s = .next t) ∧
  ∀ (o : Operation) (y : System), (∀ bytes, o ≠ .loadImage bytes) → ∃ z, perform o y = .next z

/-- R26: how each instruction leaves `pc`, counted from the address it was fetched from, every row of the
table. -/
def Obligations.PcAfterCycle : Prop :=
  ∀ (s : State), s.fault = none → s.sp ≤ Config.hw.stackCapacity →
    (∀ i, s.Runs i → ∃ t, step s = .next t ∧ t.pc =
      match i with
      | .nop | .cls | .ldImm _ _ | .addImm _ _ | .ldReg _ _ | .orReg _ _ | .andReg _ _ | .xorReg _ _
      | .addReg _ _ => s.pc + 2#16
      | .seImm x kk => if s.reg x = kk then s.pc + 4#16 else s.pc + 2#16
      | .sneImm x kk => if s.reg x ≠ kk then s.pc + 4#16 else s.pc + 2#16
      | .seReg x y => if s.reg x = s.reg y then s.pc + 4#16 else s.pc + 2#16
      | .jp nnn => BitVec.ofNat 16 nnn.toNat
      | .call nnn => if s.sp < Config.hw.stackCapacity then BitVec.ofNat 16 nnn.toNat else s.pc + 2#16
      | .ret => if 0 < s.sp then s.slot (s.sp - 1) else s.pc + 2#16) ∧
    (s.pc.toNat + 1 < Config.hw.memSize → (∀ i, decode (s.wordAt s.pc.toNat) ≠ .ok i) →
      ∃ t, step s = .next t ∧ t.pc = s.pc + 2#16) ∧
    (Config.hw.memSize ≤ s.pc.toNat + 1 → ∃ t, step s = .next t ∧ t.pc = s.pc)

/-! ### Faults (60_exceptions.md) -/

/-- R213: `MemoryOutOfBounds`, code 4, is raised exactly by a cycle that begins with `pc >= N - 1`; it records that
`pc` and no word, and nothing else changes. -/
def Obligations.FetchOutOfRangeLatches : Prop :=
  Fault.memoryOutOfBounds.code = 4 ∧
  ∀ (s : State), s.fault = none → s.sp ≤ Config.hw.stackCapacity →
    (Config.hw.memSize ≤ s.pc.toNat + 1 → ∃ t, step s = .next t ∧
      t.fault = some ⟨.memoryOutOfBounds, s.pc, none⟩ ∧ OnlyChanges [.fault] s t) ∧
    ((∃ t r, step s = .next t ∧ t.fault = some r ∧ r.cause = .memoryOutOfBounds) →
      Config.hw.memSize ≤ s.pc.toNat + 1)

/-- R210: `UnimplementedOpcode`, code 1, is raised exactly by a cycle whose fetched word matches no pattern; it
records the word and its address, and only `pc` has advanced. -/
def Obligations.UnimplementedWordLatches : Prop :=
  Fault.unimplementedOpcode.code = 1 ∧
  ∀ (s : State), s.fault = none → s.sp ≤ Config.hw.stackCapacity →
    (s.Fetches → (∀ i, decode (s.wordAt s.pc.toNat) ≠ .ok i) → ∃ t, step s = .next t ∧
      t.fault = some ⟨.unimplementedOpcode, s.pc, some (s.wordAt s.pc.toNat)⟩ ∧
      t.pc = s.pc + 2#16 ∧ OnlyChanges [.pc, .fault] s t) ∧
    ((∃ t r, step s = .next t ∧ t.fault = some r ∧ r.cause = .unimplementedOpcode) →
      s.Fetches ∧ ∀ i, decode (s.wordAt s.pc.toNat) ≠ .ok i)

/-- R211: `StackOverflow`, code 2, is raised exactly by a `CALL` executed with a full stack; it records the address
and word of the `CALL`; there is no jump and the stack is as it was. -/
def Obligations.CallOnFullStackLatches : Prop :=
  Fault.stackOverflow.code = 2 ∧
  ∀ (s : State), s.fault = none → s.sp ≤ Config.hw.stackCapacity →
    (∀ nnn, s.Runs (.call nnn) → s.sp = Config.hw.stackCapacity → ∃ t, step s = .next t ∧
      t.fault = some ⟨.stackOverflow, s.pc, some (s.wordAt s.pc.toNat)⟩ ∧
      t.pc = s.pc + 2#16 ∧ OnlyChanges [.pc, .fault] s t) ∧
    ((∃ t r, step s = .next t ∧ t.fault = some r ∧ r.cause = .stackOverflow) →
      (∃ nnn, s.Runs (.call nnn)) ∧ s.sp = Config.hw.stackCapacity)

/-- R212: `StackUnderflow`, code 3, is raised exactly by a `RET` executed with an empty stack; it records its
address and the word 0x00EE; no return address is made up. -/
def Obligations.RetOnEmptyStackLatches : Prop :=
  Fault.stackUnderflow.code = 3 ∧
  ∀ (s : State), s.fault = none → s.sp ≤ Config.hw.stackCapacity →
    (s.Runs .ret → s.sp = 0 → ∃ t, step s = .next t ∧
      t.fault = some ⟨.stackUnderflow, s.pc, some 0x00EE#16⟩ ∧
      t.pc = s.pc + 2#16 ∧ OnlyChanges [.pc, .fault] s t) ∧
    ((∃ t r, step s = .next t ∧ t.fault = some r ∧ r.cause = .stackUnderflow) →
      s.Runs .ret ∧ s.sp = 0)

/-- R215: whatever the fault, the cycle that raises it changes nothing but the latch and, once the fetch has
succeeded, `pc`, by the fetch's 2; the record holds the address of the faulting instruction. -/
def Obligations.FaultingCycleLeavesTheRest : Prop :=
  ∀ (s t : State) (r : FaultRecord), s.fault = none → s.sp ≤ Config.hw.stackCapacity →
    step s = .next t → t.fault = some r →
    OnlyChanges [.pc, .fault] s t ∧ r.fpc = s.pc ∧
    (r.cause = .memoryOutOfBounds → t.pc = s.pc ∧ r.op = none) ∧
    (r.cause ≠ .memoryOutOfBounds → t.pc = s.pc + 2#16 ∧ r.op = some (s.wordAt s.pc.toNat)) ∧
    (r.cause = .stackOverflow → t.sp = Config.hw.stackCapacity) ∧
    (r.cause = .stackUnderflow → t.sp = 0)

/-- R217, R218: a cycle of a core that is not halted ends without a fault exactly when the fetch is in range, the
word is an instruction, and the instruction's own stack check passes; nothing else faults. -/
def Obligations.CycleFaultsExactlyWhen : Prop :=
  ∀ (s : State), s.fault = none →
    ((∃ t, step s = .next t ∧ t.fault = none) ↔
      s.pc.toNat + 1 < Config.hw.memSize ∧ ∃ i, decode (s.wordAt s.pc.toNat) = .ok i ∧ s.StackAllows i)

/-- R37, R220: the latch is set by a cycle only, keeps its first record, and is cleared by `Reset` only. -/
def Obligations.LatchIsSetByCyclesAndClearedByReset : Prop :=
  ∀ (o : Operation) (y y' : System) (a : Response), perform o y = .next (y', a) →
    (∀ r, y.machine.fault = some r → (∀ keys, o ≠ .reset keys) → y'.machine.fault = some r) ∧
    (∀ keys, o = .reset keys → y'.machine.fault = none) ∧
    (y.machine.fault = none → o ≠ .cycle → y'.machine.fault = none)

/-! ### The instructions (40 to 44): the word, the effect, and what is left alone -/

/-- R100, `NOP`: no state change. -/
def Obligations.NopChangesNothing : Prop :=
  decode 0x0000#16 = .ok .nop ∧
  ∀ (s : State), ∃ t, exec .nop s = .next t ∧ OnlyChanges [] s t

/-- R101, `CLS`: every cell of the W by H grid false, whatever the grid held, and nothing else changed. -/
def Obligations.ClsClearsEveryPixel : Prop :=
  decode 0x00E0#16 = .ok .cls ∧
  ∀ (s : State), ∃ t, exec .cls s = .next t ∧
    (∀ c r, c < Config.hw.displayW → r < Config.hw.displayH → t.pixel c r = some false) ∧
    OnlyChanges [.disp] s t

/-- R113, `JP nnn`: `pc` is the low 12 bits of the word, unchecked; nothing else changes. -/
def Obligations.JpSetsPc : Prop :=
  ∀ (nnn : Addr12) (s : State), decode (BitVec.ofNat 16 (0x1000 + nnn.toNat)) = .ok (.jp nnn) ∧
    ∃ t, exec (.jp nnn) s = .next t ∧ t.pc.toNat = nnn.toNat ∧ OnlyChanges [.pc] s t

/-- R114, `CALL nnn`: with a free slot the current `pc` is stored at `sp`, `sp` rises by 1 and `pc` is the low 12
bits of the word; with none the fault is latched, `pc` is not set and the stack is unchanged.  Entered with
`pc = fpc + 2`. -/
def Obligations.CallPushesAndJumps : Prop :=
  ∀ (nnn : Addr12) (s : State), decode (BitVec.ofNat 16 (0x2000 + nnn.toNat)) = .ok (.call nnn) ∧
    (s.sp < Config.hw.stackCapacity → ∃ t, exec (.call nnn) s = .next t ∧
      t.pc.toNat = nnn.toNat ∧ t.sp = s.sp + 1 ∧ t.slot s.sp = s.pc ∧
      (∀ j, j ≠ s.sp → t.slot j = s.slot j) ∧ OnlyChanges [.pc, .stack, .sp] s t) ∧
    (s.sp = Config.hw.stackCapacity → ∃ t, exec (.call nnn) s = .next t ∧
      (∃ r, t.fault = some r ∧ r.cause = .stackOverflow) ∧ OnlyChanges [.fault] s t)

/-- R112, `RET`: with a live slot `pc` is the popped value, as it is, and `sp` falls by 1, the slot kept; with
none the fault is latched and nothing else changes.  Entered with `pc = fpc + 2`. -/
def Obligations.RetPopsAndReturns : Prop :=
  decode 0x00EE#16 = .ok .ret ∧
  ∀ (s : State), s.sp ≤ Config.hw.stackCapacity →
    (0 < s.sp → ∃ t, exec .ret s = .next t ∧
      t.pc = s.slot (s.sp - 1) ∧ t.sp = s.sp - 1 ∧ OnlyChanges [.pc, .sp] s t) ∧
    (s.sp = 0 → ∃ t, exec .ret s = .next t ∧
      (∃ r, t.fault = some r ∧ r.cause = .stackUnderflow) ∧ OnlyChanges [.fault] s t)

/-- R130, R131, R132: the three skips add 2 to `pc`, modulo 65536, where their condition holds, and change
nothing else; for the same operands exactly one of `SE Vx,kk` and `SNE Vx,kk` skips. -/
def Obligations.SkipsTestTheirOperands : Prop :=
  ∀ (x y : RegNum) (kk : Byte) (s : State),
    decode (BitVec.ofNat 16 (0x3000 + x.toNat * 256 + kk.toNat)) = .ok (.seImm x kk) ∧
    decode (BitVec.ofNat 16 (0x4000 + x.toNat * 256 + kk.toNat)) = .ok (.sneImm x kk) ∧
    decode (BitVec.ofNat 16 (0x5000 + x.toNat * 256 + y.toNat * 16)) = .ok (.seReg x y) ∧
    (∃ t, exec (.seImm x kk) s = .next t ∧ OnlyChanges [.pc] s t ∧
      t.pc.toNat = if s.reg x = kk then (s.pc.toNat + 2) % 65536 else s.pc.toNat) ∧
    (∃ t, exec (.sneImm x kk) s = .next t ∧ OnlyChanges [.pc] s t ∧
      t.pc.toNat = if s.reg x = kk then s.pc.toNat else (s.pc.toNat + 2) % 65536) ∧
    (∃ t, exec (.seReg x y) s = .next t ∧ OnlyChanges [.pc] s t ∧
      t.pc.toNat = if s.reg x = s.reg y then (s.pc.toNat + 2) % 65536 else s.pc.toNat)

/-- R133: counted from the address of the skip word, a cycle that runs a skip advances `pc` by exactly 4 where
its condition holds and by exactly 2 where it does not, and changes nothing but `pc`. -/
def Obligations.SkipsAdvanceByFourOrTwo : Prop :=
  ∀ (s : State) (x y : RegNum) (kk : Byte),
    (s.Runs (.seImm x kk) → ∃ t, step s = .next t ∧ OnlyChanges [.pc] s t ∧
      t.pc.toNat = s.pc.toNat + if s.reg x = kk then 4 else 2) ∧
    (s.Runs (.sneImm x kk) → ∃ t, step s = .next t ∧ OnlyChanges [.pc] s t ∧
      t.pc.toNat = s.pc.toNat + if s.reg x = kk then 2 else 4) ∧
    (s.Runs (.seReg x y) → ∃ t, step s = .next t ∧ OnlyChanges [.pc] s t ∧
      t.pc.toNat = s.pc.toNat + if s.reg x = s.reg y then 4 else 2)

/-- R140, `LD Vx,kk`: the register equals the immediate exactly, for every x and every value. -/
def Obligations.LoadImmediate : Prop :=
  ∀ (x : RegNum) (kk : Byte) (s : State),
    decode (BitVec.ofNat 16 (0x6000 + x.toNat * 256 + kk.toNat)) = .ok (.ldImm x kk) ∧
    ∃ t, exec (.ldImm x kk) s = .next t ∧ t.reg x = kk ∧ OnlyRegsChange [x] s t ∧ OnlyChanges [.v] s t

/-- R141, `ADD Vx,kk`: the sum modulo 256; the carry is lost and the flag register keeps its value unless it is
the destination. -/
def Obligations.AddImmediateWraps : Prop :=
  ∀ (x : RegNum) (kk : Byte) (s : State),
    decode (BitVec.ofNat 16 (0x7000 + x.toNat * 256 + kk.toNat)) = .ok (.addImm x kk) ∧
    ∃ t, exec (.addImm x kk) s = .next t ∧ (t.reg x).toNat = ((s.reg x).toNat + kk.toNat) % 256 ∧
      OnlyRegsChange [x] s t ∧ OnlyChanges [.v] s t

/-- R151 to R154, R157: the move and the three logical operations, bit by bit, write `V[x]` and nothing else. -/
def Obligations.MoveAndLogicWriteOneRegister : Prop :=
  ∀ (x y : RegNum) (s : State),
    decode (BitVec.ofNat 16 (0x8000 + x.toNat * 256 + y.toNat * 16)) = .ok (.ldReg x y) ∧
    decode (BitVec.ofNat 16 (0x8001 + x.toNat * 256 + y.toNat * 16)) = .ok (.orReg x y) ∧
    decode (BitVec.ofNat 16 (0x8002 + x.toNat * 256 + y.toNat * 16)) = .ok (.andReg x y) ∧
    decode (BitVec.ofNat 16 (0x8003 + x.toNat * 256 + y.toNat * 16)) = .ok (.xorReg x y) ∧
    (∃ t, exec (.ldReg x y) s = .next t ∧ t.reg x = s.reg y ∧
      OnlyRegsChange [x] s t ∧ OnlyChanges [.v] s t) ∧
    (∃ t, exec (.orReg x y) s = .next t ∧
      (∀ k, k < 8 → (t.reg x).getLsbD k = ((s.reg x).getLsbD k || (s.reg y).getLsbD k)) ∧
      OnlyRegsChange [x] s t ∧ OnlyChanges [.v] s t) ∧
    (∃ t, exec (.andReg x y) s = .next t ∧
      (∀ k, k < 8 → (t.reg x).getLsbD k = ((s.reg x).getLsbD k && (s.reg y).getLsbD k)) ∧
      OnlyRegsChange [x] s t ∧ OnlyChanges [.v] s t) ∧
    (∃ t, exec (.xorReg x y) s = .next t ∧
      (∀ k, k < 8 → (t.reg x).getLsbD k = ((s.reg x).getLsbD k != (s.reg y).getLsbD k)) ∧
      OnlyRegsChange [x] s t ∧ OnlyChanges [.v] s t)

/-- R155, R156, `ADD Vx,Vy`: both operands are read first; the sum modulo 256 goes to `V[x]` and then the carry,
exactly 1 or 0, to `VF`, so that with x = 15 the carry remains. -/
def Obligations.AddReportsCarry : Prop :=
  ∀ (x y : RegNum) (s : State),
    decode (BitVec.ofNat 16 (0x8004 + x.toNat * 256 + y.toNat * 16)) = .ok (.addReg x y) ∧
    ∃ t, exec (.addReg x y) s = .next t ∧
      (x ≠ flagReg → (t.reg x).toNat = ((s.reg x).toNat + (s.reg y).toNat) % 256) ∧
      t.reg flagReg = (if 256 ≤ (s.reg x).toNat + (s.reg y).toNat then 1#8 else 0#8) ∧
      OnlyRegsChange [x, flagReg] s t ∧ OnlyChanges [.v] s t

/-! ### Rules about all instructions -/

/-- R22: `VF` is written as a side effect by `ADD Vx,Vy` only, which sets it to 1 if the addition carried and to 0 if
it did not; every other instruction leaves it alone unless register 15 is its named destination. -/
def Obligations.FlagRegisterWriters : Prop :=
  ∀ (i : Instr) (s t : State), exec i s = .next t →
    (∀ x y, i = .addReg x y →
      t.reg flagReg = if 256 ≤ (s.reg x).toNat + (s.reg y).toNat then 1#8 else 0#8) ∧
    ((∀ x y, i ≠ .addReg x y) → (∀ kk, i ≠ .ldImm flagReg kk) → (∀ kk, i ≠ .addImm flagReg kk) →
      (∀ y, i ≠ .ldReg flagReg y) → (∀ y, i ≠ .orReg flagReg y) → (∀ y, i ≠ .andReg flagReg y) →
      (∀ y, i ≠ .xorReg flagReg y) → t.reg flagReg = s.reg flagReg)

/-- R23: an instruction writes no general register but those of its row, and its effect on everything depends on
no general register but those of its row: two states that agree on the registers read, and on all else but the
registers, lead to states that agree on the registers written and on all else but the registers.  The host never writes
one, but by `Reset`. -/
def Obligations.RegistersReadAndWritten : Prop :=
  (∀ (i : Instr) (s s' : State),
    (∀ r ∈ regsRead i, s'.reg r = s.reg r) → OnlyChanges [.v] s s' →
    ∃ t t', exec i s = .next t ∧ exec i s' = .next t' ∧
      OnlyRegsChange (regsWritten i) s t ∧ OnlyRegsChange (regsWritten i) s' t' ∧
      (∀ r ∈ regsWritten i, t'.reg r = t.reg r) ∧ OnlyChanges [.v] t t') ∧
  ∀ (o : Operation) (y y' : System) (a : Response), perform o y = .next (y', a) → o ≠ .cycle →
    (∀ keys, o ≠ .reset keys) → OnlyRegsChange [] y.machine y'.machine

/-- R41, columns "written by" of the elements a cycle leaves alone: a cycle writes no byte of memory, not `I`, no
timer and no key; it writes the display only as `CLS` does. -/
def Obligations.CycleWritesOnlyItsElements : Prop :=
  ∀ (s t : State), step s = .next t →
    OnlyChanges [.v, .pc, .stack, .sp, .disp, .fault] s t ∧
    (t.disp = s.disp ∨
      (s.Runs .cls ∧ ∀ c r, c < Config.hw.displayW → r < Config.hw.displayH → t.pixel c r = some false))

/-- R180: a cycle never reads `key`, `DT`, `ST`, `I` or `disp`: two states that agree on everything else lead to
states that agree on everything else, so no host operation on those elements is seen by a program. -/
def Obligations.CycleIgnoresHostElements : Prop :=
  ∀ (s s' : State), AgreeOnCore s s' →
    ∃ t t', step s = .next t ∧ step s' = .next t' ∧ AgreeOnCore t t'

/-- R191: the schedule of the host's ticks and key writes does not matter to a cycle: before it or after it, the
system is the same in the end and the cycle returns the same. -/
def Obligations.TicksAndKeysCommuteWithCycle : Prop :=
  ∀ (y : System) (o : Operation), (o = .tickDelay ∨ o = .tickSound ∨ ∃ keys, o = .keyWrite keys) →
    ∃ z a, runOperations [o, .cycle] y = .next (z, [.ok, a]) ∧
      runOperations [.cycle, o] y = .next (z, [a, .ok])

/-! ### The call stack (41_control_flow.md) -/

/-- R115: a call to A followed by a return restores `pc` to the address of the next sequential instruction, for
every A a fetch can use and every depth below capacity; the stack pointer and every live slot are as before. -/
def Obligations.CallThenReturnRoundTrip : Prop :=
  ∀ (s : State) (nnn : Addr12), s.Runs (.call nnn) → s.sp < Config.hw.stackCapacity →
    nnn.toNat + 2 ≤ Config.hw.memSize → s.wordAt nnn.toNat = 0x00EE#16 →
    ∃ t, Sys2Proof.core.run 2 s = .next t ∧ t.pc = s.pc + 2#16 ∧ t.sp = s.sp ∧
      (∀ j, j < s.sp → t.slot j = s.slot j) ∧ t.fault = none ∧ OnlyChanges [.pc, .stack] s t

/-- R116, for every capacity S: from `sp = 0`, S pushes succeed; one more overflows, leaving the stack as it was;
then S pops succeed, returning the values in reverse order of pushing; one more underflows, leaving `sp = 0`. -/
def Obligations.StackBoundaryLaw : Prop :=
  ∀ (S : Nat) (k : Vector Addr S) (vs : List Addr) (last : Addr), vs.length = S →
    ∃ k', pushAll vs (k, 0) = ((k', S), 0) ∧
      pushSlot k' S last = .error .stackOverflow ∧
      pushAll (vs ++ [last]) (k, 0) = ((k', S), 1) ∧
      popAll k' S S = (vs.reverse, 0, 0) ∧
      popSlot k' 0 = .error .stackUnderflow ∧
      popAll k' (S + 1) S = (vs.reverse, 0, 1)

/-- R192 with R113: where the word at `pc` is a jump to `pc`, a cycle leaves the whole state unchanged, and so
does any number of them. -/
def Obligations.JumpToSelfHoldsStill : Prop :=
  ∀ (s : State) (n : Nat), s.FinishedNormally → Sys2Proof.core.run n s = .next s

/-! ### Reset and the host operations -/

/-- R240: `Reset()`, from any system, gives every element the value of R42's table; the key array after it is the
free input `keys`. -/
def Obligations.ResetSetsEveryElement : Prop :=
  ∀ (y : System) (keys : Vector Bool Config.hw.keyCount),
    ∃ y', perform (.reset keys) y = .next (y', .ok) ∧
      (∀ a, y'.machine.byteAt a = if Config.hw.glyphBase ≤ a ∧ a < Config.hw.glyphBase + Config.hw.glyphLen
        then Config.hw.glyphTable.getD (a - Config.hw.glyphBase) 0#8 else 0#8) ∧
      (∀ r, y'.machine.reg r = 0#8) ∧ y'.machine.i = 0#16 ∧ y'.machine.pc.toNat = Config.hw.programOrigin ∧
      (∀ j, j < Config.hw.stackCapacity → y'.machine.stack[j]? = some 0#16) ∧ y'.machine.sp = 0 ∧
      y'.machine.dt = 0#8 ∧ y'.machine.st = 0#8 ∧
      (∀ c r, c < Config.hw.displayW → r < Config.hw.displayH → y'.machine.pixel c r = some false) ∧
      y'.machine.key = keys ∧ y'.machine.fault = none

/-- R242: the launch state, after `Reset` and the load of an image that fits: the image from the program origin
up, the glyph table at its place, every other byte 0, the rest as reset left it. -/
def Obligations.LaunchStateHoldsTheImage : Prop :=
  ∀ (y : System) (keys : Vector Bool Config.hw.keyCount) (bytes : List Byte),
    Config.hw.programOrigin + bytes.length ≤ Config.hw.memSize →
    ∃ z, runOperations [.reset keys, .loadImage bytes] y = .next (z, [.ok, .ok]) ∧
      (∀ j, j < bytes.length → bytes[j]? = some (z.machine.byteAt (Config.hw.programOrigin + j))) ∧
      (∀ a, (a < Config.hw.programOrigin ∨ Config.hw.programOrigin + bytes.length ≤ a) →
        z.machine.byteAt a = if Config.hw.glyphBase ≤ a ∧ a < Config.hw.glyphBase + Config.hw.glyphLen
        then Config.hw.glyphTable.getD (a - Config.hw.glyphBase) 0#8 else 0#8) ∧
      OnlyChanges [.mem] (State.resetWithKeys keys) z.machine

/-- R186: an image that fits is copied to `PROGRAM_ORIGIN` and up and changes nothing else; one that does not is
refused whole, with nothing written and no fault.  After the first cycle an image has no move. -/
def Obligations.LoadImageCopiesOrRefuses : Prop :=
  ∀ (y : System) (bytes : List Byte), Memory.wf Config.hw y.machine.mem = true →
    (y.phase = .running → perform (.loadImage bytes) y = .refused .imageOutOfContract) ∧
    (y.phase = .built → Config.hw.programOrigin + bytes.length ≤ Config.hw.memSize →
      ∃ y', perform (.loadImage bytes) y = .next (y', .ok) ∧
        (∀ j, j < bytes.length → bytes[j]? = some (y'.machine.byteAt (Config.hw.programOrigin + j))) ∧
        (∀ a, (a < Config.hw.programOrigin ∨ Config.hw.programOrigin + bytes.length ≤ a) →
          y'.machine.byteAt a = y.machine.byteAt a) ∧
        OnlyChanges [.mem] y.machine y'.machine) ∧
    (y.phase = .built → Config.hw.memSize < Config.hw.programOrigin + bytes.length →
      ∃ y', perform (.loadImage bytes) y = .next (y', .imageRefused) ∧ y'.machine = y.machine)

/-- A later image has no move until the next `Reset`: once an image has been taken or a cycle has been run, every
operation but `Reset` leaves it so, and `LoadImage` is refused, after any sequence of them.  An image refused for its
length counts as none, so that another may be offered.  The reading of R186 and R194 is log entry 9 (DEDUCED for the
times, DESIGN CHOICE for the second offer). -/
def Obligations.LaterImageHasNoMove : Prop :=
  (∀ (y : System) (bytes : List Byte), y.phase ≠ .built →
    perform (.loadImage bytes) y = .refused .imageOutOfContract) ∧
  (∀ (y y' : System) (a : Response), perform .cycle y = .next (y', a) → y'.phase ≠ .built) ∧
  (∀ (y y' : System) (bytes : List Byte), perform (.loadImage bytes) y = .next (y', .ok) → y'.phase ≠ .built) ∧
  (∀ (y y' : System) (bytes : List Byte), perform (.loadImage bytes) y = .next (y', .imageRefused) → y' = y) ∧
  (∀ (o : Operation) (y y' : System) (a : Response), (∀ keys, o ≠ .reset keys) → y.phase ≠ .built →
    perform o y = .next (y', a) → y'.phase ≠ .built) ∧
  ∀ (ops : List Operation) (y y' : System) (as : List Response) (bytes : List Byte),
    (∀ o ∈ ops, ∀ keys, o ≠ .reset keys) → y.phase ≠ .built → runOperations ops y = .next (y', as) →
    perform (.loadImage bytes) y' = .refused .imageOutOfContract

/-- R53, for every configuration that meets R7: loading an image leaves every byte of the glyph table. -/
def Obligations.ImageLeavesGlyphTable : Prop :=
  ∀ (c : Config) (m m' : Memory) (bytes : List Byte), c.wellFormed = true → Memory.wf c m = true →
    loadImage c bytes m = some m' →
    ∀ a, a < c.glyphBase + c.glyphLen → Memory.get c m' a = Memory.get c m a

/-- R187, R188: a tick subtracts 1 from its timer, saturating at 0, and changes nothing else, the other timer
included; so n ticks subtract n, saturating at 0. -/
def Obligations.TicksSaturateAtZero : Prop :=
  ∀ (s : State) (n : Nat),
    (Nat.iterate State.tickDelay n s).dt.toNat = s.dt.toNat - n ∧
    OnlyChanges [.dt] s (Nat.iterate State.tickDelay n s) ∧
    (Nat.iterate State.tickSound n s).st.toNat = s.st.toNat - n ∧
    OnlyChanges [.st] s (Nat.iterate State.tickSound n s)

/-- R189, R190: a key write replaces the whole array and changes nothing else; a display read returns every pixel
and changes nothing. -/
def Obligations.KeyWriteAndDisplayRead : Prop :=
  ∀ (y : System) (keys : Vector Bool Config.hw.keyCount),
    (∃ y', perform (.keyWrite keys) y = .next (y', .ok) ∧ y'.machine.key = keys ∧
      OnlyChanges [.key] y.machine y'.machine) ∧
    ∃ g, perform .displayRead y = .next (y, .grid g) ∧
      ∀ c r, (g[c]?.bind fun column => column[r]?) = y.machine.pixel c r

/-- The word that the opcode table numbers as `w`, placed where the next step fetches, is what that fetch reads
(the model's own operation, log entry 12). -/
def Obligations.PlacedWordIsFetched : Prop :=
  ∀ (s : State) (w : Nat), w < 65536 → Memory.wf Config.hw s.mem = true →
    (s.withFetchWord 16 w).Fetches ∧
    ((s.withFetchWord 16 w).wordAt (s.withFetchWord 16 w).pc.toNat).toNat = w ∧
    (s.Fetches → (s.withFetchWord 16 w).pc = s.pc ∧ OnlyChanges [.mem] s (s.withFetchWord 16 w))

/-! ### Invariants -/

/-- The machine after reset meets its invariant, whatever the key array holds (R31, R42). -/
def Obligations.ResetMeetsTheInvariant : Prop :=
  ∀ (keys : Vector Bool Config.hw.keyCount),
    (State.resetWithKeys keys).Inv ∧ (State.resetWithKeys keys).Untouched ∧ (launch keys).Inv

/-- Every cycle keeps the invariant: memory canonical, `0 <= sp <= S` (R31), every live return address at most N
(R112), `pc` at most N + 2 (R27), and a latched fault that tells the truth about the state (R210 to R215). -/
def Obligations.StepKeepsTheInvariant : Prop :=
  ∀ (s t : State), s.Inv → step s = .next t → t.Inv

/-- Every operation of the host keeps the invariant of the system. -/
def Obligations.OperationsKeepTheInvariant : Prop :=
  ∀ (o : Operation) (y y' : System) (a : Response), y.Inv → perform o y = .next (y', a) → y'.Inv

/-- In every state that any sequence of operations reaches after a reset, whatever images are loaded, keys
written and ticks made: `I` is 0 (R24), both timers are 0 (R33), every pixel is `false` (R34), memory below the
program origin, with the glyph table, holds its reset contents (R53), and the invariant holds. -/
def Obligations.ReachableMachinesAreUntouched : Prop :=
  ∀ (keys : Vector Bool Config.hw.keyCount) (ops : List Operation) (y : System) (as : List Response),
    runOperations ops (launch keys) = .next (y, as) → y.Inv ∧ y.machine.Untouched

/-- R242 and R100: with no image loaded the machine executes `NOP`s from the program origin to the end of memory
and then faults: after k cycles `pc` is the origin plus 2k and nothing else has changed, and the cycle after the
last latches `MemoryOutOfBounds` at N. -/
def Obligations.UnloadedMemoryIsANopSlide : Prop :=
  ∀ (keys : Vector Bool Config.hw.keyCount),
    (∀ k, Config.hw.programOrigin + 2 * k ≤ Config.hw.memSize →
      ∃ t, Sys2Proof.core.run k (State.resetWithKeys keys) = .next t ∧
        t.pc.toNat = Config.hw.programOrigin + 2 * k ∧ OnlyChanges [.pc] (State.resetWithKeys keys) t) ∧
    ∃ t, Sys2Proof.core.run ((Config.hw.memSize - Config.hw.programOrigin) / 2 + 1)
        (State.resetWithKeys keys) = .next t ∧
      t.pc.toNat = Config.hw.memSize ∧
      t.fault = some ⟨.memoryOutOfBounds, BitVec.ofNat 16 Config.hw.memSize, none⟩

/-! ### The record of an execute fault, and the elements no operation changes -/

/-- Log entry 8 (DEDUCED): a meaning that faults records the address it was fetched from, which is `pc - 2`, and the
word it was decoded from, which is its encoding: `CALL` on a full stack and `RET` on an empty one, whatever the
state. -/
def Obligations.ExecuteFaultRecordsTheInstruction : Prop :=
  ∀ (s : State) (nnn : Addr12) (fpc : Addr), s.pc = fpc + 2#16 →
    (s.sp = Config.hw.stackCapacity → ∃ t, exec (.call nnn) s = .next t ∧
      t.fault = some ⟨.stackOverflow, fpc, some (encode (.call nnn))⟩ ∧ OnlyChanges [.fault] s t) ∧
    (s.sp = 0 → ∃ t, exec .ret s = .next t ∧
      t.fault = some ⟨.stackUnderflow, fpc, some (encode .ret)⟩ ∧ OnlyChanges [.fault] s t)

/-- Every operation of the host, from every system that meets the invariant and has the elements no operation
changes at their reset values, leaves both so: `I` (R24), the timers (R33), the dark display (R34), and memory below
the program origin with the glyph table (R53). -/
def Obligations.OperationsKeepUntouched : Prop :=
  ∀ (o : Operation) (y y' : System) (a : Response), y.Inv → y.machine.Untouched →
    perform o y = .next (y', a) → y'.Inv ∧ y'.machine.Untouched
end

