-- ==== Sys2Proof/Laws/Encoding.lean ====
section
/-! SUPPORT. The fields of a word and of a concatenation of fields, as numbers and as bit vectors; words and
their bytes.  Later proofs cite these and unfold no field. -/

namespace Sys2Proof

/-- Every instruction is well formed: the widths of the fields are in the operand types (R21). -/
theorem Instr.wellFormed_all (i : Instr) : i.wellFormed = true := by
  rw [Instr.wellFormed, List.all_eq_true]
  cases i <;> simp only [Instr.operands, List.forall_mem_cons, List.not_mem_nil, decide_eq_true_eq,
    BitVec.isLt, true_and, IsEmpty.forall_iff, implies_true]

/-! ### A concatenation as a number -/

theorem toNat_append_add {m n : Nat} (a : BitVec m) (b : BitVec n) :
    (a ++ b).toNat = a.toNat * 2 ^ n + b.toNat := by
  rw [BitVec.toNat_append, ← Nat.shiftLeft_add_eq_or_of_lt b.isLt, Nat.shiftLeft_eq]

theorem toNat_digit_nnn (a : BitVec 4) (n : Addr12) : (a ++ n : Word).toNat = a.toNat * 4096 + n.toNat :=
  toNat_append_add a n

theorem toNat_digits_kk (a x : BitVec 4) (k : Byte) :
    (a ++ x ++ k : Word).toNat = a.toNat * 4096 + x.toNat * 256 + k.toNat := by
  refine (toNat_append_add (a ++ x) k).trans ?_
  rw [toNat_append_add]; omega

theorem toNat_digits (a x y d : BitVec 4) :
    (a ++ x ++ y ++ d : Word).toNat = a.toNat * 4096 + x.toNat * 256 + y.toNat * 16 + d.toNat := by
  refine (toNat_append_add (a ++ x ++ y) d).trans ?_
  rw [toNat_append_add, toNat_append_add]; omega

theorem toNat_bytes (b0 b1 : Byte) : (b0 ++ b1 : Word).toNat = b0.toNat * 256 + b1.toNat :=
  toNat_append_add b0 b1

/-! ### The fields as numbers -/

theorem fieldD1_toNat (op : Word) : (fieldD1 op).toNat = op.toNat / 4096 := by
  have := op.isLt
  simp only [fieldD1, BitVec.extractLsb'_toNat, Nat.shiftRight_eq_div_pow]; omega

theorem fieldD2_toNat (op : Word) : (fieldD2 op).toNat = op.toNat / 256 % 16 := by
  simp only [fieldD2, BitVec.extractLsb'_toNat, Nat.shiftRight_eq_div_pow]

theorem fieldD3_toNat (op : Word) : (fieldD3 op).toNat = op.toNat / 16 % 16 := by
  simp only [fieldD3, BitVec.extractLsb'_toNat, Nat.shiftRight_eq_div_pow]

theorem fieldD4_toNat (op : Word) : (fieldD4 op).toNat = op.toNat % 16 := by
  simp only [fieldD4, BitVec.extractLsb'_toNat, Nat.shiftRight_eq_div_pow]; omega

theorem fieldKk_toNat (op : Word) : (fieldKk op).toNat = op.toNat % 256 := by
  simp only [fieldKk, BitVec.extractLsb'_toNat, Nat.shiftRight_eq_div_pow]; omega

theorem fieldNnn_toNat (op : Word) : (fieldNnn op).toNat = op.toNat % 4096 := by
  simp only [fieldNnn, BitVec.extractLsb'_toNat, Nat.shiftRight_eq_div_pow]; omega

/-! ### The fields of a concatenation -/

@[simp] theorem fieldD1_nnn (a : BitVec 4) (n : Addr12) : fieldD1 (a ++ n : Word) = a := by
  apply BitVec.eq_of_toNat_eq; rw [fieldD1_toNat, toNat_digit_nnn]; omega

@[simp] theorem fieldNnn_nnn (a : BitVec 4) (n : Addr12) : fieldNnn (a ++ n : Word) = n := by
  apply BitVec.eq_of_toNat_eq; rw [fieldNnn_toNat, toNat_digit_nnn]; omega

@[simp] theorem fieldD1_kk (a x : BitVec 4) (k : Byte) : fieldD1 (a ++ x ++ k : Word) = a := by
  apply BitVec.eq_of_toNat_eq; rw [fieldD1_toNat, toNat_digits_kk]; omega

@[simp] theorem fieldD2_kk (a x : BitVec 4) (k : Byte) : fieldD2 (a ++ x ++ k : Word) = x := by
  apply BitVec.eq_of_toNat_eq; rw [fieldD2_toNat, toNat_digits_kk]; omega

@[simp] theorem fieldKk_kk (a x : BitVec 4) (k : Byte) : fieldKk (a ++ x ++ k : Word) = k := by
  apply BitVec.eq_of_toNat_eq; rw [fieldKk_toNat, toNat_digits_kk]; omega

@[simp] theorem fieldD1_digits (a x y d : BitVec 4) : fieldD1 (a ++ x ++ y ++ d : Word) = a := by
  apply BitVec.eq_of_toNat_eq; rw [fieldD1_toNat, toNat_digits]; omega

@[simp] theorem fieldD2_digits (a x y d : BitVec 4) : fieldD2 (a ++ x ++ y ++ d : Word) = x := by
  apply BitVec.eq_of_toNat_eq; rw [fieldD2_toNat, toNat_digits]; omega

@[simp] theorem fieldD3_digits (a x y d : BitVec 4) : fieldD3 (a ++ x ++ y ++ d : Word) = y := by
  apply BitVec.eq_of_toNat_eq; rw [fieldD3_toNat, toNat_digits]; omega

@[simp] theorem fieldD4_digits (a x y d : BitVec 4) : fieldD4 (a ++ x ++ y ++ d : Word) = d := by
  apply BitVec.eq_of_toNat_eq; rw [fieldD4_toNat, toNat_digits]; omega

/-- A word whose first digit is not 0 is none of the three fixed words of family 0. -/
theorem ne_of_fieldD1_ne_zero {op : Word} (h : fieldD1 op ≠ 0#4) :
    op ≠ 0x0000#16 ∧ op ≠ 0x00E0#16 ∧ op ≠ 0x00EE#16 := by
  refine ⟨?_, ?_, ?_⟩ <;> rintro rfl <;> exact h (by decide)

/-! ### The word as a concatenation of its fields -/

theorem digit_nnn_eq (op : Word) : (fieldD1 op ++ fieldNnn op : Word) = op := by
  apply BitVec.eq_of_toNat_eq
  rw [toNat_digit_nnn, fieldD1_toNat, fieldNnn_toNat]; omega

theorem digits_kk_eq (op : Word) : (fieldD1 op ++ fieldD2 op ++ fieldKk op : Word) = op := by
  apply BitVec.eq_of_toNat_eq
  rw [toNat_digits_kk, fieldD1_toNat, fieldD2_toNat, fieldKk_toNat]; omega

theorem digits_eq (op : Word) : (fieldD1 op ++ fieldD2 op ++ fieldD3 op ++ fieldD4 op : Word) = op := by
  apply BitVec.eq_of_toNat_eq
  rw [toNat_digits, fieldD1_toNat, fieldD2_toNat, fieldD3_toNat, fieldD4_toNat]; omega

/-! ### Words and bytes -/

theorem assembleWord_highFirst_toNat (b0 b1 : Byte) :
    (assembleWord .highFirst b0 b1).toNat = b0.toNat * 256 + b1.toNat := toNat_bytes b0 b1

theorem assembleWord_lowFirst_toNat (b0 b1 : Byte) :
    (assembleWord .lowFirst b0 b1).toNat = b1.toNat * 256 + b0.toNat := toNat_bytes b1 b0

/-- The bytes of a word, put together again in the same order, are the word. -/
@[simp] theorem assembleWord_wordBytes (o : FetchOrder) (op : Word) :
    assembleWord o (wordBytes o op).1 (wordBytes o op).2 = op := by
  have hi : (op.extractLsb' 8 8).toNat = op.toNat / 256 := by
    have := op.isLt
    simp only [BitVec.extractLsb'_toNat, Nat.shiftRight_eq_div_pow]; omega
  have lo : (op.extractLsb' 0 8).toNat = op.toNat % 256 := by
    simp only [BitVec.extractLsb'_toNat, Nat.shiftRight_eq_div_pow]; omega
  apply BitVec.eq_of_toNat_eq
  cases o
  · rw [assembleWord_highFirst_toNat]; simp only [wordBytes, hi, lo]; omega
  · rw [assembleWord_lowFirst_toNat]; simp only [wordBytes, hi, lo]; omega

/-! ### Masks of the opcode table -/

/-- A word under the mask `0xF000` is its first digit. -/
theorem and_F000_eq_iff (op : Word) (d : BitVec 4) :
    op &&& 0xF000#16 = (d ++ 0#12 : Word) ↔ fieldD1 op = d := by
  have e : op &&& 0xF000#16 = (fieldD1 op ++ 0#12 : Word) := by
    conv_lhs => rw [← digit_nnn_eq op]
    have : (0xF000#16 : Word) = (0xF#4 ++ 0#12 : Word) := by decide
    rw [this]
    refine (BitVec.and_append (x₁ := fieldD1 op) (x₂ := 0xF#4) (y₁ := fieldNnn op) (y₂ := 0#12)).trans ?_
    congr 1
    · exact BitVec.and_allOnes
    · exact BitVec.and_zero
  rw [e]
  constructor
  · intro h
    have := congrArg fieldD1 h
    simpa using this
  · rintro rfl; rfl

/-- A word under the mask `0xF00F` is its first and its last digit. -/
theorem and_F00F_eq_iff (op : Word) (d l : BitVec 4) :
    op &&& 0xF00F#16 = (d ++ 0#4 ++ 0#4 ++ l : Word) ↔ fieldD1 op = d ∧ fieldD4 op = l := by
  have e : op &&& 0xF00F#16 = (fieldD1 op ++ 0#4 ++ 0#4 ++ fieldD4 op : Word) := by
    conv_lhs => rw [← digits_eq op]
    have : (0xF00F#16 : Word) = (0xF#4 ++ 0#4 ++ 0#4 ++ 0xF#4 : Word) := by decide
    rw [this]
    refine (BitVec.and_append (x₁ := fieldD1 op ++ fieldD2 op ++ fieldD3 op) (x₂ := 0xF#4 ++ 0#4 ++ 0#4)
      (y₁ := fieldD4 op) (y₂ := 0xF#4)).trans ?_
    congr 1
    · refine (BitVec.and_append (x₁ := fieldD1 op ++ fieldD2 op) (x₂ := 0xF#4 ++ 0#4)
        (y₁ := fieldD3 op) (y₂ := 0#4)).trans ?_
      congr 1
      · refine (BitVec.and_append (x₁ := fieldD1 op) (x₂ := 0xF#4) (y₁ := fieldD2 op) (y₂ := 0#4)).trans ?_
        congr 1
        · exact BitVec.and_allOnes
        · exact BitVec.and_zero
      · exact BitVec.and_zero
    · exact BitVec.and_allOnes
  rw [e]
  constructor
  · intro h
    have h1 := congrArg fieldD1 h
    have h4 := congrArg fieldD4 h
    rw [fieldD1_digits, fieldD1_digits] at h1
    rw [fieldD4_digits, fieldD4_digits] at h4
    exact ⟨h1, h4⟩
  · rintro ⟨rfl, rfl⟩; rfl

end Sys2Proof
end

