-- ==== Sys2Proof/Laws/Memory.lean ====
section
/-! SUPPORT. The laws of memory: a byte written is read back, every other byte reads as before, and every
operation keeps the canonical form. -/

namespace Sys2Proof.Machine

variable (c : Config)

/-- What the head of a canonical memory says, and that its tail is canonical. -/
theorem wfFrom_cons (lo k : Nat) (x : Byte) (rest : Memory) :
    Memory.wfFrom c lo ((k, x) :: rest) = true ↔
      lo ≤ k ∧ k < c.memSize ∧ x ≠ resetByte c k ∧ Memory.wfFrom c (k + 1) rest = true := by
  simp [Memory.wfFrom, and_assoc]

theorem wfFrom_mono {lo lo' : Nat} (h : lo' ≤ lo) : ∀ {m : Memory}, Memory.wfFrom c lo m = true →
    Memory.wfFrom c lo' m = true
  | [], _ => rfl
  | (k, x) :: rest, hm => by
    rw [wfFrom_cons] at hm ⊢
    exact ⟨by omega, hm.2⟩

/-- Below its first listed address a canonical memory reads as reset left it. -/
theorem get_of_lt : ∀ {m : Memory} {lo a : Nat}, Memory.wfFrom c lo m = true → a < lo →
    Memory.get c m a = resetByte c a
  | [], _, _, _, _ => rfl
  | (k, x) :: rest, lo, a, hm, h => by
    rw [wfFrom_cons] at hm
    rw [Memory.get, if_neg (by omega), get_of_lt hm.2.2.2 (by omega)]

theorem get_consCell (a k : Nat) (b : Byte) {rest : Memory} {lo : Nat} (h : Memory.wfFrom c lo rest = true)
    (ha : a < lo) : Memory.get c (Memory.cons c a b rest) k = if k = a then b else Memory.get c rest k := by
  unfold Memory.cons
  split
  · rename_i hb
    split
    · subst_vars; exact get_of_lt c h ha
    · rfl
  · rw [Memory.get]

theorem wfFrom_consCell {a lo : Nat} {b : Byte} {rest : Memory} (h : Memory.wfFrom c (a + 1) rest = true)
    (hlo : lo ≤ a) (ha : a < c.memSize) : Memory.wfFrom c lo (Memory.cons c a b rest) = true := by
  unfold Memory.cons
  split
  · exact wfFrom_mono c (by omega) h
  · rename_i hb
    exact (wfFrom_cons c lo a b rest).2 ⟨hlo, ha, hb, h⟩

/-- A read after a write of one byte (R58). -/
theorem get_set (a k : Nat) (b : Byte) : ∀ {m : Memory} {lo : Nat}, Memory.wfFrom c lo m = true →
    Memory.get c (Memory.set c m a b) k = if k = a then b else Memory.get c m k
  | [], _, _ => get_consCell c a k b (lo := a + 1) rfl (by omega)
  | (j, x) :: rest, lo, hm => by
    have hm' := (wfFrom_cons c lo j x rest).1 hm
    rw [Memory.set]
    split
    · rename_i h
      exact get_consCell c a k b (lo := j) ((wfFrom_cons c j j x rest).2 ⟨le_refl j, hm'.2⟩) h
    · split
      · rename_i h
        rw [get_consCell c a k b hm'.2.2.2 (by omega), Memory.get]
        subst h
        by_cases hk : k = a <;> simp [hk]
      · rename_i h1 h2
        rw [Memory.get, Memory.get, get_set a k b hm'.2.2.2]
        by_cases hk : k = j
        · subst hk; rw [if_pos rfl, if_neg (by omega), if_pos rfl]
        · rw [if_neg hk, if_neg hk]

/-- Writing one byte keeps the canonical form. -/
theorem wfFrom_set {a : Nat} (b : Byte) (ha : a < c.memSize) : ∀ {m : Memory} {lo : Nat}, lo ≤ a →
    Memory.wfFrom c lo m = true → Memory.wfFrom c lo (Memory.set c m a b) = true
  | [], _, hlo, _ => wfFrom_consCell c rfl hlo ha
  | (j, x) :: rest, lo, hlo, hm => by
    have hm' := (wfFrom_cons c lo j x rest).1 hm
    rw [Memory.set]
    split
    · rename_i h
      exact wfFrom_consCell c ((wfFrom_cons c (a + 1) j x rest).2 ⟨by omega, hm'.2⟩) hlo ha
    · split
      · rename_i h
        exact wfFrom_consCell c (h ▸ hm'.2.2.2) hlo ha
      · exact (wfFrom_cons c lo j x _).2
          ⟨hm'.1, hm'.2.1, hm'.2.2.1, wfFrom_set b ha (by omega) hm'.2.2.2⟩

theorem wf_set {m : Memory} {a : Nat} (b : Byte) (ha : a < c.memSize) (h : Memory.wf c m = true) :
    Memory.wf c (Memory.set c m a b) = true := wfFrom_set c b ha (Nat.zero_le a) h

/-- Writing a list of bytes keeps the canonical form. -/
theorem wf_setBytes : ∀ (bytes : List Byte) {m : Memory} {a : Nat}, a + bytes.length ≤ c.memSize →
    Memory.wf c m = true → Memory.wf c (Memory.setBytes c m a bytes) = true
  | [], _, _, _, h => h
  | b :: bs, m, a, ha, h => by
    rw [List.length_cons] at ha
    exact wf_setBytes bs (by omega) (wf_set c b (by omega) h)

/-- A read after a write of a list of bytes: the byte of the list inside it, the old byte outside. -/
theorem get_setBytes (k : Nat) : ∀ (bytes : List Byte) {m : Memory} {a : Nat}, a + bytes.length ≤ c.memSize →
    Memory.wf c m = true → Memory.get c (Memory.setBytes c m a bytes) k =
      if a ≤ k ∧ k < a + bytes.length then bytes.getD (k - a) 0#8 else Memory.get c m k
  | [], _, _, _, _ => by rw [Memory.setBytes, if_neg (by simp)]
  | b :: bs, m, a, ha, h => by
    rw [List.length_cons] at ha
    rw [Memory.setBytes, get_setBytes k bs (by omega) (wf_set c b (by omega) h), get_set c a k b h,
      List.length_cons]
    by_cases h1 : k = a
    · subst h1
      rw [if_neg (by omega), if_pos rfl, if_pos (by omega)]; simp
    · by_cases h2 : a + 1 ≤ k ∧ k < a + 1 + bs.length
      · rw [if_pos h2, if_pos (by omega)]
        obtain ⟨d, rfl⟩ : ∃ d, k = a + 1 + d := ⟨k - (a + 1), by omega⟩
        have e1 : a + 1 + d - (a + 1) = d := by omega
        have e2 : a + 1 + d - a = d + 1 := by omega
        rw [e1, e2, List.getD_cons_succ]
      · rw [if_neg h2, if_neg h1, if_neg (by omega)]

/-- `MemRead` of two bytes (R57). -/
theorem memRead_two (m : Memory) (a : Nat) : memRead c m a 2 =
    if a + 1 < c.memSize then .ok [Memory.get c m a, Memory.get c m (a + 1)] else .error .memoryOutOfBounds := by
  unfold memRead
  by_cases h : a + 1 < c.memSize
  · rw [if_neg (by omega), if_pos h]; rfl
  · rw [if_pos (by omega), if_neg h]

/-- The read half of the fetch (R60, R61). -/
theorem fetchWord_eq (m : Memory) (a : Nat) : fetchWord c m a =
    if a + 1 < c.memSize then .ok (memWord c m a) else .error .memoryOutOfBounds := by
  unfold fetchWord
  rw [memRead_two]
  by_cases h : a + 1 < c.memSize
  · rw [if_pos h, if_pos h]; rfl
  · rw [if_neg h, if_neg h]

/-- `MemWrite` that fits keeps the canonical form (R58). -/
theorem wf_memWrite {m m' : Memory} {a : Nat} {bytes : List Byte} (h : Memory.wf c m = true)
    (hw : memWrite c m a bytes = .ok m') : Memory.wf c m' = true := by
  unfold memWrite at hw
  split at hw
  · cases hw
  · cases hw; exact wf_setBytes c bytes (by omega) h

/-- When an image is loaded, and what memory is then (R186). -/
theorem loadImage_eq_some_iff (bytes : List Byte) (m m' : Memory) : loadImage c bytes m = some m' ↔
    c.programOrigin + bytes.length ≤ c.memSize ∧ m' = Memory.setBytes c m c.programOrigin bytes := by
  unfold loadImage memWrite
  by_cases h : c.programOrigin + bytes.length > c.memSize
  · rw [if_pos h]; simp; omega
  · rw [if_neg h]; simp only [Option.some.injEq, eq_comm (b := m')]
    exact ⟨fun e => ⟨by omega, e⟩, fun e => e.2⟩

/-- An image that does not fit is refused (R186). -/
theorem loadImage_eq_none_iff (bytes : List Byte) (m : Memory) : loadImage c bytes m = none ↔
    c.memSize < c.programOrigin + bytes.length := by
  unfold loadImage memWrite
  by_cases h : c.programOrigin + bytes.length > c.memSize
  · rw [if_pos h]; simp; omega
  · rw [if_neg h]; simp; omega

end Sys2Proof.Machine
end

