-- ==== Sys2Proof/Laws/State.lean ====
section
/-! SUPPORT. One lemma per field per update of the state, and the accessors under each update, so that no later
proof unfolds a record update. -/

namespace Sys2Proof.Machine

variable (s : State)

/-! ### setPc -/

@[simp] theorem setPc_mem (a : Addr) : (s.setPc a).mem = s.mem := rfl
@[simp] theorem setPc_v (a : Addr) : (s.setPc a).v = s.v := rfl
@[simp] theorem setPc_i (a : Addr) : (s.setPc a).i = s.i := rfl
@[simp] theorem setPc_pc (a : Addr) : (s.setPc a).pc = a := rfl
@[simp] theorem setPc_stack (a : Addr) : (s.setPc a).stack = s.stack := rfl
@[simp] theorem setPc_sp (a : Addr) : (s.setPc a).sp = s.sp := rfl
@[simp] theorem setPc_dt (a : Addr) : (s.setPc a).dt = s.dt := rfl
@[simp] theorem setPc_st (a : Addr) : (s.setPc a).st = s.st := rfl
@[simp] theorem setPc_disp (a : Addr) : (s.setPc a).disp = s.disp := rfl
@[simp] theorem setPc_key (a : Addr) : (s.setPc a).key = s.key := rfl
@[simp] theorem setPc_fault (a : Addr) : (s.setPc a).fault = s.fault := rfl
@[simp] theorem setPc_reg (a : Addr) (r : RegNum) : (s.setPc a).reg r = s.reg r := rfl
@[simp] theorem setPc_byteAt (a : Addr) (j : Nat) : (s.setPc a).byteAt j = s.byteAt j := rfl
@[simp] theorem setPc_wordAt (a : Addr) (j : Nat) : (s.setPc a).wordAt j = s.wordAt j := rfl
@[simp] theorem setPc_slot (a : Addr) (j : Nat) : (s.setPc a).slot j = s.slot j := rfl
@[simp] theorem setPc_pixel (a : Addr) (c r : Nat) : (s.setPc a).pixel c r = s.pixel c r := rfl

/-! ### setStack -/

@[simp] theorem setStack_mem (k : Vector Addr Config.hw.stackCapacity) (n : Nat) : (s.setStack k n).mem = s.mem := rfl
@[simp] theorem setStack_v (k : Vector Addr Config.hw.stackCapacity) (n : Nat) : (s.setStack k n).v = s.v := rfl
@[simp] theorem setStack_i (k : Vector Addr Config.hw.stackCapacity) (n : Nat) : (s.setStack k n).i = s.i := rfl
@[simp] theorem setStack_pc (k : Vector Addr Config.hw.stackCapacity) (n : Nat) : (s.setStack k n).pc = s.pc := rfl
@[simp] theorem setStack_stack (k : Vector Addr Config.hw.stackCapacity) (n : Nat) : (s.setStack k n).stack = k := rfl
@[simp] theorem setStack_sp (k : Vector Addr Config.hw.stackCapacity) (n : Nat) : (s.setStack k n).sp = n := rfl
@[simp] theorem setStack_dt (k : Vector Addr Config.hw.stackCapacity) (n : Nat) : (s.setStack k n).dt = s.dt := rfl
@[simp] theorem setStack_st (k : Vector Addr Config.hw.stackCapacity) (n : Nat) : (s.setStack k n).st = s.st := rfl
@[simp] theorem setStack_disp (k : Vector Addr Config.hw.stackCapacity) (n : Nat) : (s.setStack k n).disp = s.disp := rfl
@[simp] theorem setStack_key (k : Vector Addr Config.hw.stackCapacity) (n : Nat) : (s.setStack k n).key = s.key := rfl
@[simp] theorem setStack_fault (k : Vector Addr Config.hw.stackCapacity) (n : Nat) : (s.setStack k n).fault = s.fault := rfl
@[simp] theorem setStack_reg (k : Vector Addr Config.hw.stackCapacity) (n : Nat) (r : RegNum) : (s.setStack k n).reg r = s.reg r := rfl
@[simp] theorem setStack_byteAt (k : Vector Addr Config.hw.stackCapacity) (n : Nat) (j : Nat) : (s.setStack k n).byteAt j = s.byteAt j := rfl
@[simp] theorem setStack_wordAt (k : Vector Addr Config.hw.stackCapacity) (n : Nat) (j : Nat) : (s.setStack k n).wordAt j = s.wordAt j := rfl
@[simp] theorem setStack_slot (k : Vector Addr Config.hw.stackCapacity) (n : Nat) (j : Nat) : (s.setStack k n).slot j = k[j]?.getD 0#16 := rfl
@[simp] theorem setStack_pixel (k : Vector Addr Config.hw.stackCapacity) (n : Nat) (c r : Nat) : (s.setStack k n).pixel c r = s.pixel c r := rfl

/-! ### setMem -/

@[simp] theorem setMem_mem (m : Memory) : (s.setMem m).mem = m := rfl
@[simp] theorem setMem_v (m : Memory) : (s.setMem m).v = s.v := rfl
@[simp] theorem setMem_i (m : Memory) : (s.setMem m).i = s.i := rfl
@[simp] theorem setMem_pc (m : Memory) : (s.setMem m).pc = s.pc := rfl
@[simp] theorem setMem_stack (m : Memory) : (s.setMem m).stack = s.stack := rfl
@[simp] theorem setMem_sp (m : Memory) : (s.setMem m).sp = s.sp := rfl
@[simp] theorem setMem_dt (m : Memory) : (s.setMem m).dt = s.dt := rfl
@[simp] theorem setMem_st (m : Memory) : (s.setMem m).st = s.st := rfl
@[simp] theorem setMem_disp (m : Memory) : (s.setMem m).disp = s.disp := rfl
@[simp] theorem setMem_key (m : Memory) : (s.setMem m).key = s.key := rfl
@[simp] theorem setMem_fault (m : Memory) : (s.setMem m).fault = s.fault := rfl
@[simp] theorem setMem_reg (m : Memory) (r : RegNum) : (s.setMem m).reg r = s.reg r := rfl
@[simp] theorem setMem_byteAt (m : Memory) (j : Nat) : (s.setMem m).byteAt j = Memory.get Config.hw m j := rfl
@[simp] theorem setMem_wordAt (m : Memory) (j : Nat) : (s.setMem m).wordAt j = memWord Config.hw m j := rfl
@[simp] theorem setMem_slot (m : Memory) (j : Nat) : (s.setMem m).slot j = s.slot j := rfl
@[simp] theorem setMem_pixel (m : Memory) (c r : Nat) : (s.setMem m).pixel c r = s.pixel c r := rfl

/-! ### setDisp -/

@[simp] theorem setDisp_mem (d : Display Config.hw.displayW Config.hw.displayH) : (s.setDisp d).mem = s.mem := rfl
@[simp] theorem setDisp_v (d : Display Config.hw.displayW Config.hw.displayH) : (s.setDisp d).v = s.v := rfl
@[simp] theorem setDisp_i (d : Display Config.hw.displayW Config.hw.displayH) : (s.setDisp d).i = s.i := rfl
@[simp] theorem setDisp_pc (d : Display Config.hw.displayW Config.hw.displayH) : (s.setDisp d).pc = s.pc := rfl
@[simp] theorem setDisp_stack (d : Display Config.hw.displayW Config.hw.displayH) : (s.setDisp d).stack = s.stack := rfl
@[simp] theorem setDisp_sp (d : Display Config.hw.displayW Config.hw.displayH) : (s.setDisp d).sp = s.sp := rfl
@[simp] theorem setDisp_dt (d : Display Config.hw.displayW Config.hw.displayH) : (s.setDisp d).dt = s.dt := rfl
@[simp] theorem setDisp_st (d : Display Config.hw.displayW Config.hw.displayH) : (s.setDisp d).st = s.st := rfl
@[simp] theorem setDisp_disp (d : Display Config.hw.displayW Config.hw.displayH) : (s.setDisp d).disp = d := rfl
@[simp] theorem setDisp_key (d : Display Config.hw.displayW Config.hw.displayH) : (s.setDisp d).key = s.key := rfl
@[simp] theorem setDisp_fault (d : Display Config.hw.displayW Config.hw.displayH) : (s.setDisp d).fault = s.fault := rfl
@[simp] theorem setDisp_reg (d : Display Config.hw.displayW Config.hw.displayH) (r : RegNum) : (s.setDisp d).reg r = s.reg r := rfl
@[simp] theorem setDisp_byteAt (d : Display Config.hw.displayW Config.hw.displayH) (j : Nat) : (s.setDisp d).byteAt j = s.byteAt j := rfl
@[simp] theorem setDisp_wordAt (d : Display Config.hw.displayW Config.hw.displayH) (j : Nat) : (s.setDisp d).wordAt j = s.wordAt j := rfl
@[simp] theorem setDisp_slot (d : Display Config.hw.displayW Config.hw.displayH) (j : Nat) : (s.setDisp d).slot j = s.slot j := rfl

/-! ### setDt -/

@[simp] theorem setDt_mem (b : Byte) : (s.setDt b).mem = s.mem := rfl
@[simp] theorem setDt_v (b : Byte) : (s.setDt b).v = s.v := rfl
@[simp] theorem setDt_i (b : Byte) : (s.setDt b).i = s.i := rfl
@[simp] theorem setDt_pc (b : Byte) : (s.setDt b).pc = s.pc := rfl
@[simp] theorem setDt_stack (b : Byte) : (s.setDt b).stack = s.stack := rfl
@[simp] theorem setDt_sp (b : Byte) : (s.setDt b).sp = s.sp := rfl
@[simp] theorem setDt_dt (b : Byte) : (s.setDt b).dt = b := rfl
@[simp] theorem setDt_st (b : Byte) : (s.setDt b).st = s.st := rfl
@[simp] theorem setDt_disp (b : Byte) : (s.setDt b).disp = s.disp := rfl
@[simp] theorem setDt_key (b : Byte) : (s.setDt b).key = s.key := rfl
@[simp] theorem setDt_fault (b : Byte) : (s.setDt b).fault = s.fault := rfl
@[simp] theorem setDt_reg (b : Byte) (r : RegNum) : (s.setDt b).reg r = s.reg r := rfl
@[simp] theorem setDt_byteAt (b : Byte) (j : Nat) : (s.setDt b).byteAt j = s.byteAt j := rfl
@[simp] theorem setDt_wordAt (b : Byte) (j : Nat) : (s.setDt b).wordAt j = s.wordAt j := rfl
@[simp] theorem setDt_slot (b : Byte) (j : Nat) : (s.setDt b).slot j = s.slot j := rfl
@[simp] theorem setDt_pixel (b : Byte) (c r : Nat) : (s.setDt b).pixel c r = s.pixel c r := rfl

/-! ### setSt -/

@[simp] theorem setSt_mem (b : Byte) : (s.setSt b).mem = s.mem := rfl
@[simp] theorem setSt_v (b : Byte) : (s.setSt b).v = s.v := rfl
@[simp] theorem setSt_i (b : Byte) : (s.setSt b).i = s.i := rfl
@[simp] theorem setSt_pc (b : Byte) : (s.setSt b).pc = s.pc := rfl
@[simp] theorem setSt_stack (b : Byte) : (s.setSt b).stack = s.stack := rfl
@[simp] theorem setSt_sp (b : Byte) : (s.setSt b).sp = s.sp := rfl
@[simp] theorem setSt_dt (b : Byte) : (s.setSt b).dt = s.dt := rfl
@[simp] theorem setSt_st (b : Byte) : (s.setSt b).st = b := rfl
@[simp] theorem setSt_disp (b : Byte) : (s.setSt b).disp = s.disp := rfl
@[simp] theorem setSt_key (b : Byte) : (s.setSt b).key = s.key := rfl
@[simp] theorem setSt_fault (b : Byte) : (s.setSt b).fault = s.fault := rfl
@[simp] theorem setSt_reg (b : Byte) (r : RegNum) : (s.setSt b).reg r = s.reg r := rfl
@[simp] theorem setSt_byteAt (b : Byte) (j : Nat) : (s.setSt b).byteAt j = s.byteAt j := rfl
@[simp] theorem setSt_wordAt (b : Byte) (j : Nat) : (s.setSt b).wordAt j = s.wordAt j := rfl
@[simp] theorem setSt_slot (b : Byte) (j : Nat) : (s.setSt b).slot j = s.slot j := rfl
@[simp] theorem setSt_pixel (b : Byte) (c r : Nat) : (s.setSt b).pixel c r = s.pixel c r := rfl

/-! ### setKey -/

@[simp] theorem setKey_mem (k : Vector Bool Config.hw.keyCount) : (s.setKey k).mem = s.mem := rfl
@[simp] theorem setKey_v (k : Vector Bool Config.hw.keyCount) : (s.setKey k).v = s.v := rfl
@[simp] theorem setKey_i (k : Vector Bool Config.hw.keyCount) : (s.setKey k).i = s.i := rfl
@[simp] theorem setKey_pc (k : Vector Bool Config.hw.keyCount) : (s.setKey k).pc = s.pc := rfl
@[simp] theorem setKey_stack (k : Vector Bool Config.hw.keyCount) : (s.setKey k).stack = s.stack := rfl
@[simp] theorem setKey_sp (k : Vector Bool Config.hw.keyCount) : (s.setKey k).sp = s.sp := rfl
@[simp] theorem setKey_dt (k : Vector Bool Config.hw.keyCount) : (s.setKey k).dt = s.dt := rfl
@[simp] theorem setKey_st (k : Vector Bool Config.hw.keyCount) : (s.setKey k).st = s.st := rfl
@[simp] theorem setKey_disp (k : Vector Bool Config.hw.keyCount) : (s.setKey k).disp = s.disp := rfl
@[simp] theorem setKey_key (k : Vector Bool Config.hw.keyCount) : (s.setKey k).key = k := rfl
@[simp] theorem setKey_fault (k : Vector Bool Config.hw.keyCount) : (s.setKey k).fault = s.fault := rfl
@[simp] theorem setKey_reg (k : Vector Bool Config.hw.keyCount) (r : RegNum) : (s.setKey k).reg r = s.reg r := rfl
@[simp] theorem setKey_byteAt (k : Vector Bool Config.hw.keyCount) (j : Nat) : (s.setKey k).byteAt j = s.byteAt j := rfl
@[simp] theorem setKey_wordAt (k : Vector Bool Config.hw.keyCount) (j : Nat) : (s.setKey k).wordAt j = s.wordAt j := rfl
@[simp] theorem setKey_slot (k : Vector Bool Config.hw.keyCount) (j : Nat) : (s.setKey k).slot j = s.slot j := rfl
@[simp] theorem setKey_pixel (k : Vector Bool Config.hw.keyCount) (c r : Nat) : (s.setKey k).pixel c r = s.pixel c r := rfl

/-! ### setFault -/

@[simp] theorem setFault_mem (f : Option FaultRecord) : (s.setFault f).mem = s.mem := rfl
@[simp] theorem setFault_v (f : Option FaultRecord) : (s.setFault f).v = s.v := rfl
@[simp] theorem setFault_i (f : Option FaultRecord) : (s.setFault f).i = s.i := rfl
@[simp] theorem setFault_pc (f : Option FaultRecord) : (s.setFault f).pc = s.pc := rfl
@[simp] theorem setFault_stack (f : Option FaultRecord) : (s.setFault f).stack = s.stack := rfl
@[simp] theorem setFault_sp (f : Option FaultRecord) : (s.setFault f).sp = s.sp := rfl
@[simp] theorem setFault_dt (f : Option FaultRecord) : (s.setFault f).dt = s.dt := rfl
@[simp] theorem setFault_st (f : Option FaultRecord) : (s.setFault f).st = s.st := rfl
@[simp] theorem setFault_disp (f : Option FaultRecord) : (s.setFault f).disp = s.disp := rfl
@[simp] theorem setFault_key (f : Option FaultRecord) : (s.setFault f).key = s.key := rfl
@[simp] theorem setFault_fault (f : Option FaultRecord) : (s.setFault f).fault = f := rfl
@[simp] theorem setFault_reg (f : Option FaultRecord) (r : RegNum) : (s.setFault f).reg r = s.reg r := rfl
@[simp] theorem setFault_byteAt (f : Option FaultRecord) (j : Nat) : (s.setFault f).byteAt j = s.byteAt j := rfl
@[simp] theorem setFault_wordAt (f : Option FaultRecord) (j : Nat) : (s.setFault f).wordAt j = s.wordAt j := rfl
@[simp] theorem setFault_slot (f : Option FaultRecord) (j : Nat) : (s.setFault f).slot j = s.slot j := rfl
@[simp] theorem setFault_pixel (f : Option FaultRecord) (c r : Nat) : (s.setFault f).pixel c r = s.pixel c r := rfl

/-! ### setReg -/

@[simp] theorem setReg_mem (q : RegNum) (b : Byte) : (s.setReg q b).mem = s.mem := rfl
@[simp] theorem setReg_i (q : RegNum) (b : Byte) : (s.setReg q b).i = s.i := rfl
@[simp] theorem setReg_pc (q : RegNum) (b : Byte) : (s.setReg q b).pc = s.pc := rfl
@[simp] theorem setReg_stack (q : RegNum) (b : Byte) : (s.setReg q b).stack = s.stack := rfl
@[simp] theorem setReg_sp (q : RegNum) (b : Byte) : (s.setReg q b).sp = s.sp := rfl
@[simp] theorem setReg_dt (q : RegNum) (b : Byte) : (s.setReg q b).dt = s.dt := rfl
@[simp] theorem setReg_st (q : RegNum) (b : Byte) : (s.setReg q b).st = s.st := rfl
@[simp] theorem setReg_disp (q : RegNum) (b : Byte) : (s.setReg q b).disp = s.disp := rfl
@[simp] theorem setReg_key (q : RegNum) (b : Byte) : (s.setReg q b).key = s.key := rfl
@[simp] theorem setReg_fault (q : RegNum) (b : Byte) : (s.setReg q b).fault = s.fault := rfl
@[simp] theorem setReg_byteAt (q : RegNum) (b : Byte) (j : Nat) : (s.setReg q b).byteAt j = s.byteAt j := rfl
@[simp] theorem setReg_wordAt (q : RegNum) (b : Byte) (j : Nat) : (s.setReg q b).wordAt j = s.wordAt j := rfl
@[simp] theorem setReg_slot (q : RegNum) (b : Byte) (j : Nat) : (s.setReg q b).slot j = s.slot j := rfl
@[simp] theorem setReg_pixel (q : RegNum) (b : Byte) (c r : Nat) : (s.setReg q b).pixel c r = s.pixel c r := rfl

/-! ### The registers -/

theorem setReg_reg (r q : RegNum) (b : Byte) : (s.setReg r b).reg q = if q = r then b else s.reg q := by
  have h : r.toNat = q.toNat ↔ q = r := ⟨fun h => (BitVec.eq_of_toNat_eq h).symm, fun h => h ▸ rfl⟩
  simp [State.setReg, State.reg, Vector.getElem_set, h]

@[simp] theorem setReg_reg_self (r : RegNum) (b : Byte) : (s.setReg r b).reg r = b := by
  simp [setReg_reg]

@[simp] theorem setReg_reg_of_ne {r q : RegNum} (b : Byte) (h : q ≠ r) : (s.setReg r b).reg q = s.reg q := by
  simp [setReg_reg, h]

/-! ### Advancing, raising -/

@[simp] theorem advance_pc : s.advance.pc = s.pc + 2#16 := rfl

@[simp] theorem advance_mem : s.advance.mem = s.mem := rfl
@[simp] theorem advance_v : s.advance.v = s.v := rfl
@[simp] theorem advance_i : s.advance.i = s.i := rfl
@[simp] theorem advance_stack : s.advance.stack = s.stack := rfl
@[simp] theorem advance_sp : s.advance.sp = s.sp := rfl
@[simp] theorem advance_dt : s.advance.dt = s.dt := rfl
@[simp] theorem advance_st : s.advance.st = s.st := rfl
@[simp] theorem advance_disp : s.advance.disp = s.disp := rfl
@[simp] theorem advance_key : s.advance.key = s.key := rfl
@[simp] theorem advance_fault : s.advance.fault = s.fault := rfl
@[simp] theorem advance_reg (r : RegNum) : s.advance.reg r = s.reg r := rfl
@[simp] theorem advance_byteAt (j : Nat) : s.advance.byteAt j = s.byteAt j := rfl
@[simp] theorem advance_wordAt (j : Nat) : s.advance.wordAt j = s.wordAt j := rfl
@[simp] theorem advance_slot (j : Nat) : s.advance.slot j = s.slot j := rfl
@[simp] theorem advance_pixel (c r : Nat) : s.advance.pixel c r = s.pixel c r := rfl

/-- Raising sets the latch and nothing else (R214). -/
theorem raise_eq (cause : Fault) (fpc : Addr) (op : Option Word) :
    raise cause fpc op s = s.setFault (some ⟨cause, fpc, op⟩) := rfl

/-- The instruction of the execute half sees `pc = fpc + 2`, so what it latches names `fpc` (R215). -/
theorem raiseInExecute_advance (cause : Fault) (instr : Instr) :
    raiseInExecute cause instr s.advance = s.advance.setFault (some ⟨cause, s.pc, some (encode instr)⟩) := by
  have : s.pc + 2#16 - 2#16 = s.pc := by simp
  simp only [raiseInExecute, raise_eq, advance_pc, this]

end Sys2Proof.Machine
end

