-- ==== Sys2Proof/Laws/Cycle.lean ====
section
/-! SUPPORT. Said once: what decoding, the stack primitives, the fetch, each meaning and a step can do.  Later
proofs cite these equations and unfold none of the definitions. -/

namespace Sys2Proof.Machine

/-! ### Decoding -/

/-- The two ways an `if` comes out. -/
theorem ite_cases {α : Type} {p : Prop} [Decidable p] {a b c : α} (h : (if p then a else b) = c) :
    (p ∧ a = c) ∨ (¬ p ∧ b = c) := by
  by_cases hp : p
  · exact .inl ⟨hp, (if_pos hp).symm.trans h⟩
  · exact .inr ⟨hp, (if_neg hp).symm.trans h⟩

/-- What a decoded word looks like, one case for each pattern of R86. -/
theorem decode_cases {op : Word} {i : Instr} (h : decode op = .ok i) :
    (op = 0x0000#16 ∧ i = .nop) ∨ (op = 0x00E0#16 ∧ i = .cls) ∨ (op = 0x00EE#16 ∧ i = .ret) ∨
    (fieldD1 op = 1#4 ∧ i = .jp (fieldNnn op)) ∨ (fieldD1 op = 2#4 ∧ i = .call (fieldNnn op)) ∨
    (fieldD1 op = 3#4 ∧ i = .seImm (fieldD2 op) (fieldKk op)) ∨
    (fieldD1 op = 4#4 ∧ i = .sneImm (fieldD2 op) (fieldKk op)) ∨
    (fieldD1 op = 5#4 ∧ fieldD4 op = 0#4 ∧ i = .seReg (fieldD2 op) (fieldD3 op)) ∨
    (fieldD1 op = 6#4 ∧ i = .ldImm (fieldD2 op) (fieldKk op)) ∨
    (fieldD1 op = 7#4 ∧ i = .addImm (fieldD2 op) (fieldKk op)) ∨
    (fieldD1 op = 8#4 ∧ fieldD4 op = 0#4 ∧ i = .ldReg (fieldD2 op) (fieldD3 op)) ∨
    (fieldD1 op = 8#4 ∧ fieldD4 op = 1#4 ∧ i = .orReg (fieldD2 op) (fieldD3 op)) ∨
    (fieldD1 op = 8#4 ∧ fieldD4 op = 2#4 ∧ i = .andReg (fieldD2 op) (fieldD3 op)) ∨
    (fieldD1 op = 8#4 ∧ fieldD4 op = 3#4 ∧ i = .xorReg (fieldD2 op) (fieldD3 op)) ∨
    (fieldD1 op = 8#4 ∧ fieldD4 op = 4#4 ∧ i = .addReg (fieldD2 op) (fieldD3 op)) := by
  unfold decode at h
  rcases ite_cases h with ⟨p, h⟩ | ⟨-, h⟩
  · exact .inl ⟨p, (Except.ok.inj h).symm⟩
  rcases ite_cases h with ⟨p, h⟩ | ⟨-, h⟩
  · exact .inr <| .inl ⟨p, (Except.ok.inj h).symm⟩
  rcases ite_cases h with ⟨p, h⟩ | ⟨-, h⟩
  · exact .inr <| .inr <| .inl ⟨p, (Except.ok.inj h).symm⟩
  rcases ite_cases h with ⟨p, h⟩ | ⟨-, h⟩
  · exact .inr <| .inr <| .inr <| .inl ⟨p, (Except.ok.inj h).symm⟩
  rcases ite_cases h with ⟨p, h⟩ | ⟨-, h⟩
  · exact .inr <| .inr <| .inr <| .inr <| .inl ⟨p, (Except.ok.inj h).symm⟩
  rcases ite_cases h with ⟨p, h⟩ | ⟨-, h⟩
  · exact .inr <| .inr <| .inr <| .inr <| .inr <| .inl ⟨p, (Except.ok.inj h).symm⟩
  rcases ite_cases h with ⟨p, h⟩ | ⟨-, h⟩
  · exact .inr <| .inr <| .inr <| .inr <| .inr <| .inr <| .inl ⟨p, (Except.ok.inj h).symm⟩
  rcases ite_cases h with ⟨p, h⟩ | ⟨-, h⟩
  · exact .inr <| .inr <| .inr <| .inr <| .inr <| .inr <| .inr <| .inl ⟨p.1, p.2, (Except.ok.inj h).symm⟩
  rcases ite_cases h with ⟨p, h⟩ | ⟨-, h⟩
  · exact .inr <| .inr <| .inr <| .inr <| .inr <| .inr <| .inr <| .inr <| .inl ⟨p, (Except.ok.inj h).symm⟩
  rcases ite_cases h with ⟨p, h⟩ | ⟨-, h⟩
  · exact .inr <| .inr <| .inr <| .inr <| .inr <| .inr <| .inr <| .inr <| .inr <| .inl ⟨p, (Except.ok.inj h).symm⟩
  rcases ite_cases h with ⟨p, h⟩ | ⟨-, h⟩
  · exact .inr <| .inr <| .inr <| .inr <| .inr <| .inr <| .inr <| .inr <| .inr <| .inr <| .inl ⟨p.1, p.2, (Except.ok.inj h).symm⟩
  rcases ite_cases h with ⟨p, h⟩ | ⟨-, h⟩
  · exact .inr <| .inr <| .inr <| .inr <| .inr <| .inr <| .inr <| .inr <| .inr <| .inr <| .inr <| .inl ⟨p.1, p.2, (Except.ok.inj h).symm⟩
  rcases ite_cases h with ⟨p, h⟩ | ⟨-, h⟩
  · exact .inr <| .inr <| .inr <| .inr <| .inr <| .inr <| .inr <| .inr <| .inr <| .inr <| .inr <| .inr <| .inl ⟨p.1, p.2, (Except.ok.inj h).symm⟩
  rcases ite_cases h with ⟨p, h⟩ | ⟨-, h⟩
  · exact .inr <| .inr <| .inr <| .inr <| .inr <| .inr <| .inr <| .inr <| .inr <| .inr <| .inr <| .inr <| .inr <| .inl ⟨p.1, p.2, (Except.ok.inj h).symm⟩
  rcases ite_cases h with ⟨p, h⟩ | ⟨-, h⟩
  · exact .inr <| .inr <| .inr <| .inr <| .inr <| .inr <| .inr <| .inr <| .inr <| .inr <| .inr <| .inr <| .inr <| .inr <| ⟨p.1, p.2, (Except.ok.inj h).symm⟩
  cases h

/-- Decoding a word whose first digit is not 0, by its digits (R85). -/
theorem decode_of_digit {op : Word} (h : fieldD1 op ≠ 0#4) : decode op =
    if fieldD1 op = 1#4 then .ok (.jp (fieldNnn op))
    else if fieldD1 op = 2#4 then .ok (.call (fieldNnn op))
    else if fieldD1 op = 3#4 then .ok (.seImm (fieldD2 op) (fieldKk op))
    else if fieldD1 op = 4#4 then .ok (.sneImm (fieldD2 op) (fieldKk op))
    else if fieldD1 op = 5#4 ∧ fieldD4 op = 0#4 then .ok (.seReg (fieldD2 op) (fieldD3 op))
    else if fieldD1 op = 6#4 then .ok (.ldImm (fieldD2 op) (fieldKk op))
    else if fieldD1 op = 7#4 then .ok (.addImm (fieldD2 op) (fieldKk op))
    else if fieldD1 op = 8#4 ∧ fieldD4 op = 0#4 then .ok (.ldReg (fieldD2 op) (fieldD3 op))
    else if fieldD1 op = 8#4 ∧ fieldD4 op = 1#4 then .ok (.orReg (fieldD2 op) (fieldD3 op))
    else if fieldD1 op = 8#4 ∧ fieldD4 op = 2#4 then .ok (.andReg (fieldD2 op) (fieldD3 op))
    else if fieldD1 op = 8#4 ∧ fieldD4 op = 3#4 then .ok (.xorReg (fieldD2 op) (fieldD3 op))
    else if fieldD1 op = 8#4 ∧ fieldD4 op = 4#4 then .ok (.addReg (fieldD2 op) (fieldD3 op))
    else .error (.unimplemented op) := by
  obtain ⟨h0, h1, h2⟩ := ne_of_fieldD1_ne_zero h
  simp only [decode, if_neg h0, if_neg h1, if_neg h2]

/-- The only rejection of a word names the word (R88). -/
theorem decode_error {op : Word} {r : DecodeReject} (h : decode op = .error r) : r = .unimplemented op := by
  unfold decode at h
  iterate 15 rcases ite_cases h with ⟨-, h⟩ | ⟨-, h⟩; cases h
  exact (Except.error.inj h).symm

/-! ### The stack primitives -/

theorem pushSlot_of_lt {S : Nat} (k : Vector Addr S) {sp : Nat} (v : Addr) (h : sp < S) :
    pushSlot k sp v = .ok (k.set sp v h, sp + 1) := dif_pos h

theorem pushSlot_of_le {S : Nat} (k : Vector Addr S) {sp : Nat} (v : Addr) (h : S ≤ sp) :
    pushSlot k sp v = .error .stackOverflow := dif_neg (Nat.not_lt.2 h)

theorem popSlot_of_pos {S : Nat} (k : Vector Addr S) {sp : Nat} (h : 0 < sp) :
    popSlot k sp = .ok (k[sp - 1]?.getD 0#16, sp - 1) := if_pos h

theorem popSlot_zero {S : Nat} (k : Vector Addr S) : popSlot k 0 = .error .stackUnderflow := rfl

/-! ### The fetch -/

/-- `Fetch()` (R60, R61). -/
theorem fetch_eq (s : State) : fetch s =
    if s.pc.toNat + 1 < Config.hw.memSize then .ok (s.wordAt s.pc.toNat, s.advance)
    else .error .memoryOutOfBounds := by
  unfold fetch
  rw [fetchWord_eq]
  by_cases h : s.pc.toNat + 1 < Config.hw.memSize
  · rw [if_pos h, if_pos h]; rfl
  · rw [if_neg h, if_neg h]

/-! ### Operands and conditions -/

/-- The target of a jump or a call, as a number (R84). -/
theorem target_toNat (nnn : Addr12) : (target nnn).toNat = nnn.toNat := by
  have := nnn.isLt
  simp only [target, BitVec.truncate_eq_setWidth, BitVec.toNat_setWidth]; omega

/-- What a skip leaves in `pc` (R133). -/
theorem skipIf_pc (condition : Bool) (s : State) :
    (skipIf condition s).pc = if condition then s.pc + 2#16 else s.pc := by
  cases condition <;> rfl

/-- A skip changes `pc` and nothing else (R133). -/
theorem skipIf_keeps (condition : Bool) (s : State) :
    skipIf condition s = s.setPc (skipIf condition s).pc := by
  cases condition <;> rfl

/-- One decrement of a timer, as a number (R158). -/
theorem countDown_toNat (t : Byte) : (countDown t).toNat = t.toNat - 1 := by
  have := t.isLt
  unfold countDown
  split
  · rw [BitVec.toNat_ofNat]; omega
  · simp only [BitVec.toNat_ofNat]; omega

/-- Where a fetch is in range the advance of `pc` does not wrap (R27). -/
theorem add_two_toNat {a : Addr} (h : a.toNat + 1 < Config.hw.memSize) : (a + 2#16).toNat = a.toNat + 2 := by
  have h' : a.toNat + 1 < 4096 := h
  rw [BitVec.toNat_add, BitVec.toNat_ofNat]; omega

/-- The advance of `pc` as a number, where it does not wrap (R27). -/
theorem advance_pc_toNat {s : State} (h : s.pc.toNat + 2 < 65536) : s.advance.pc.toNat = s.pc.toNat + 2 := by
  show (s.pc + 2#16).toNat = _
  rw [BitVec.toNat_add, BitVec.toNat_ofNat]; omega

/-- A skip's effect on `pc` as a number, where it does not wrap (R27, R133). -/
theorem skipIf_pc_toNat (condition : Bool) {s : State} (h : s.pc.toNat + 2 < 65536) :
    (skipIf condition s).pc.toNat = s.pc.toNat + if condition then 2 else 0 := by
  cases condition
  · rfl
  · exact advance_pc_toNat h

/-- The stack check does not look at `pc` (R218). -/
theorem stackAllows_advance (s : State) (i : Instr) : s.advance.StackAllows i ↔ s.StackAllows i := by
  cases i <;> exact Iff.rfl

/-- The slots after a push: the new one at `sp`, every other as it was (R110). -/
theorem slot_push (s : State) (h : s.sp < Config.hw.stackCapacity) (v : Addr) (n j : Nat) :
    (s.setStack (s.stack.set s.sp v h) n).slot j = if j = s.sp then v else s.slot j := by
  rw [setStack_slot]
  by_cases e : j = s.sp
  · subst e; rw [if_pos rfl, Vector.getElem?_set_self]; rfl
  · rw [if_neg e, Vector.getElem?_set_ne _ (by omega)]; rfl

/-! ### The meanings that can fault -/

theorem execCall_of_lt (nnn : Addr12) (s : State) (h : s.sp < Config.hw.stackCapacity) :
    execCall nnn s = .next ((s.setStack (s.stack.set s.sp s.pc h) (s.sp + 1)).setPc (target nnn)) := by
  rw [execCall, pushSlot_of_lt s.stack s.pc h]

theorem execCall_of_le (nnn : Addr12) (s : State) (h : Config.hw.stackCapacity ≤ s.sp) :
    execCall nnn s = .next (raiseInExecute .stackOverflow (.call nnn) s) := by
  rw [execCall, pushSlot_of_le s.stack s.pc h]

theorem execRet_of_pos (s : State) (h : 0 < s.sp) :
    execRet s = .next ((s.setStack s.stack (s.sp - 1)).setPc (s.slot (s.sp - 1))) := by
  rw [execRet, popSlot_of_pos s.stack h]; rfl

theorem execRet_of_zero (s : State) (h : s.sp = 0) :
    execRet s = .next (raiseInExecute .stackUnderflow .ret s) := by
  rw [execRet, h, popSlot_zero]

/-! ### What an instruction can do -/

/-- What no instruction changes, and the one thing it can do to the display (10_state.md R41). -/
theorem exec_keeps {i : Instr} {s t : State} (h : exec i s = .next t) :
    t.mem = s.mem ∧ t.i = s.i ∧ t.dt = s.dt ∧ t.st = s.st ∧ t.key = s.key ∧
      (t.disp = s.disp ∨ (i = .cls ∧ t.disp = clearDisplay Config.hw.displayW Config.hw.displayH)) := by
  cases i with
  | cls => cases h; exact ⟨rfl, rfl, rfl, rfl, rfl, .inr ⟨rfl, rfl⟩⟩
  | ret =>
    simp only [exec] at h
    by_cases hs : s.sp = 0
    · rw [execRet_of_zero s hs] at h; cases h; exact ⟨rfl, rfl, rfl, rfl, rfl, .inl rfl⟩
    · rw [execRet_of_pos s (Nat.pos_of_ne_zero hs)] at h; cases h; exact ⟨rfl, rfl, rfl, rfl, rfl, .inl rfl⟩
  | call nnn =>
    simp only [exec] at h
    by_cases hs : s.sp < Config.hw.stackCapacity
    · rw [execCall_of_lt nnn s hs] at h; cases h; exact ⟨rfl, rfl, rfl, rfl, rfl, .inl rfl⟩
    · rw [execCall_of_le nnn s (Nat.not_lt.1 hs)] at h; cases h; exact ⟨rfl, rfl, rfl, rfl, rfl, .inl rfl⟩
  | seImm x kk => cases h; unfold skipIf; split <;> exact ⟨rfl, rfl, rfl, rfl, rfl, .inl rfl⟩
  | sneImm x kk => cases h; unfold skipIf; split <;> exact ⟨rfl, rfl, rfl, rfl, rfl, .inl rfl⟩
  | seReg x y => cases h; unfold skipIf; split <;> exact ⟨rfl, rfl, rfl, rfl, rfl, .inl rfl⟩
  | _ => cases h; exact ⟨rfl, rfl, rfl, rfl, rfl, .inl rfl⟩

/-- Either the instruction's own check passes and the latch is as it was, or it is `CALL` on a full stack or
`RET` on an empty one and the fault is raised (R211, R212, R218). -/
theorem exec_fault {i : Instr} {s t : State} (h : exec i s = .next t) :
    (t.fault = s.fault ∧ s.StackAllows i) ∨
    (∃ nnn, i = .call nnn ∧ Config.hw.stackCapacity ≤ s.sp ∧ t = raiseInExecute .stackOverflow i s) ∨
    (i = .ret ∧ s.sp = 0 ∧ t = raiseInExecute .stackUnderflow i s) := by
  cases i with
  | ret =>
    simp only [exec] at h
    by_cases hs : s.sp = 0
    · rw [execRet_of_zero s hs] at h; cases h; exact .inr (.inr ⟨rfl, hs, rfl⟩)
    · rw [execRet_of_pos s (Nat.pos_of_ne_zero hs)] at h; cases h; exact .inl ⟨rfl, Nat.pos_of_ne_zero hs⟩
  | call nnn =>
    simp only [exec] at h
    by_cases hs : s.sp < Config.hw.stackCapacity
    · rw [execCall_of_lt nnn s hs] at h; cases h; exact .inl ⟨rfl, hs⟩
    · rw [execCall_of_le nnn s (Nat.not_lt.1 hs)] at h; cases h; exact .inr (.inl ⟨nnn, rfl, Nat.not_lt.1 hs, rfl⟩)
  | seImm x kk => cases h; unfold skipIf; split <;> exact .inl ⟨rfl, trivial⟩
  | sneImm x kk => cases h; unfold skipIf; split <;> exact .inl ⟨rfl, trivial⟩
  | seReg x y => cases h; unfold skipIf; split <;> exact .inl ⟨rfl, trivial⟩
  | _ => cases h; exact .inl ⟨rfl, trivial⟩

/-! ### What a step can do -/

/-- `Cycle()` as one equation, in the order of checks of 60_exceptions.md R218. -/
theorem step_eq (s : State) : step s =
    if s.fault ≠ none then .next s
    else if s.pc.toNat + 1 < Config.hw.memSize then
      match decode (s.wordAt s.pc.toNat) with
      | .ok i => exec i s.advance
      | .error _ => .next (s.advance.setFault (some ⟨.unimplementedOpcode, s.pc, some (s.wordAt s.pc.toNat)⟩))
    else .next (s.setFault (some ⟨.memoryOutOfBounds, s.pc, none⟩)) := by
  unfold step
  rcases hf : s.fault with _ | r
  · simp only [ne_eq, not_true_eq_false, if_false]
    rw [fetch_eq]
    by_cases h : s.pc.toNat + 1 < Config.hw.memSize
    · rw [if_pos h, if_pos h]
      simp only [raise_eq]
      rcases decode (s.wordAt s.pc.toNat) with _ | _ <;> rfl
    · rw [if_neg h, if_neg h]; rfl
  · simp

/-- Everything a step can do: nothing to a halted core, a fetch fault, an unimplemented word, or the instruction
at `pc` (R181, R218). -/
theorem step_cases {s t : State} (h : step s = .next t) :
    (s.fault ≠ none ∧ t = s) ∨
    (s.fault = none ∧ ¬ s.pc.toNat + 1 < Config.hw.memSize ∧
      t = s.setFault (some ⟨.memoryOutOfBounds, s.pc, none⟩)) ∨
    (s.Fetches ∧ decode (s.wordAt s.pc.toNat) = .error (.unimplemented (s.wordAt s.pc.toNat)) ∧
      t = s.advance.setFault (some ⟨.unimplementedOpcode, s.pc, some (s.wordAt s.pc.toNat)⟩)) ∨
    (∃ i, s.Runs i ∧ exec i s.advance = .next t) := by
  rw [step_eq] at h
  by_cases hf : s.fault = none
  · rw [if_neg (by simp [hf])] at h
    by_cases hp : s.pc.toNat + 1 < Config.hw.memSize
    · rw [if_pos hp] at h
      rcases e : decode (s.wordAt s.pc.toNat) with r | i
      · rw [e] at h; cases h; exact .inr (.inr (.inl ⟨⟨hf, hp⟩, by rw [decode_error e], rfl⟩))
      · rw [e] at h; exact .inr (.inr (.inr ⟨i, ⟨⟨hf, hp⟩, e⟩, h⟩))
    · rw [if_neg hp] at h; cases h; exact .inr (.inl ⟨hf, hp, rfl⟩)
  · rw [if_pos hf] at h; cases h; exact .inl ⟨hf, rfl⟩

/-- The cycle of a state that runs an instruction (R180). -/
theorem step_runs {s : State} {i : Instr} (h : s.Runs i) : step s = exec i s.advance := by
  rw [step_eq, if_neg (not_not.2 h.1.1), if_pos h.1.2, h.2]

/-- A run of the machine behind the host's interface, one step at a time. -/
theorem run_succ_of_next {s t : State} (h : step s = .next t) (k : Nat) :
    Sys2Proof.core.run (k + 1) s = Sys2Proof.core.run k t := by
  simp only [Host.Core.run, Sys2Proof.core, h]

@[simp] theorem run_zero (s : State) : Sys2Proof.core.run 0 s = .next s := rfl

end Sys2Proof.Machine
end

