-- ==== Sys2Proof/Laws/Frame.lean ====
section
/-! SUPPORT. What each update of the state leaves alone, in the terms of `OnlyChanges`. -/

namespace Sys2Proof.Machine

variable (s : State)

theorem OnlyChanges.refl (es : List Element) : OnlyChanges es s s := fun e _ => by cases e <;> simp [Unchanged]

theorem OnlyChanges.mono {es fs : List Element} {s t : State} (h : OnlyChanges es s t) (hs : es ⊆ fs) :
    OnlyChanges fs s t := fun e he => h e fun he' => he (hs he')

theorem OnlyChanges.trans {es : List Element} {s t u : State} (h : OnlyChanges es s t)
    (h' : OnlyChanges es t u) : OnlyChanges es s u := fun e he => by
  have h1 := h e he
  have h2 := h' e he
  cases e <;> simp_all [Unchanged]

theorem onlyChanges_setPc (a : Addr) : OnlyChanges [.pc] s (s.setPc a) := fun e he => by
  cases e <;> simp_all [Unchanged]

theorem onlyChanges_advance : OnlyChanges [.pc] s s.advance := onlyChanges_setPc s _

theorem onlyChanges_setStack (k : Vector Addr Config.hw.stackCapacity) (n : Nat) :
    OnlyChanges [.stack, .sp] s (s.setStack k n) := fun e he => by cases e <;> simp_all [Unchanged]

theorem onlyChanges_setMem (m : Memory) : OnlyChanges [.mem] s (s.setMem m) := fun e he => by
  cases e <;> simp_all [Unchanged]

theorem onlyChanges_setDisp (d : Display Config.hw.displayW Config.hw.displayH) :
    OnlyChanges [.disp] s (s.setDisp d) := fun e he => by cases e <;> simp_all [Unchanged]

theorem onlyChanges_setDt (b : Byte) : OnlyChanges [.dt] s (s.setDt b) := fun e he => by
  cases e <;> simp_all [Unchanged]

theorem onlyChanges_setSt (b : Byte) : OnlyChanges [.st] s (s.setSt b) := fun e he => by
  cases e <;> simp_all [Unchanged]

theorem onlyChanges_setKey (k : Vector Bool Config.hw.keyCount) : OnlyChanges [.key] s (s.setKey k) :=
  fun e he => by cases e <;> simp_all [Unchanged]

theorem onlyChanges_setFault (f : Option FaultRecord) : OnlyChanges [.fault] s (s.setFault f) :=
  fun e he => by cases e <;> simp_all [Unchanged]

theorem onlyChanges_setReg (r : RegNum) (b : Byte) : OnlyChanges [.v] s (s.setReg r b) := fun e he => by
  cases e <;> simp_all [Unchanged]

theorem onlyRegsChange_setReg (r : RegNum) (b : Byte) : OnlyRegsChange [r] s (s.setReg r b) := fun q hq => by
  simp_all

/-- A cleared display has every pixel of its grid false (R101). -/
theorem clearDisplay_pixel {W H c r : Nat} (hc : c < W) (hr : r < H) :
    ((clearDisplay W H)[c]?.bind fun column => column[r]?) = some false := by
  simp [clearDisplay, hc, hr]

/-- A sound reading of a slot in range (R29). -/
theorem slot_of_lt {j : Nat} (h : j < Config.hw.stackCapacity) : s.slot j = s.stack[j] := by
  simp [State.slot, h]

end Sys2Proof.Machine
end

