-- ==== Sys2Proof/Laws/HostOps.lean ====
section
/-! SUPPORT. Said once: what the host operations, the placing of a word and one operation of the system can do. -/

namespace Sys2Proof.Machine

/-! ### Memory of the whole machine -/

/-- Reset memory is canonical (R42). -/
theorem wf_reset (c : Config) : Memory.wf c [] = true := rfl

/-- When the machine takes an image, and what it is then (R186). -/
theorem loadImage_state_iff (bytes : List Byte) (s t : State) : s.loadImage bytes = some t ↔
    Config.hw.programOrigin + bytes.length ≤ Config.hw.memSize ∧
      t = s.setMem (Memory.setBytes Config.hw s.mem Config.hw.programOrigin bytes) := by
  simp only [State.loadImage, Option.map_eq_some_iff, loadImage_eq_some_iff]
  constructor
  · rintro ⟨m, ⟨h, rfl⟩, rfl⟩; exact ⟨h, rfl⟩
  · rintro ⟨h, rfl⟩; exact ⟨_, ⟨h, rfl⟩, rfl⟩

/-- An image that does not fit is refused (R186). -/
theorem loadImage_state_none_iff (bytes : List Byte) (s : State) : s.loadImage bytes = none ↔
    Config.hw.memSize < Config.hw.programOrigin + bytes.length := by
  rw [State.loadImage, Option.map_eq_none_iff, loadImage_eq_none_iff]

/-- Taking an image keeps the canonical form (R186). -/
theorem wf_loadImage {bytes : List Byte} {s t : State} (h : s.loadImage bytes = some t)
    (hm : Memory.wf Config.hw s.mem = true) : Memory.wf Config.hw t.mem = true := by
  obtain ⟨hl, rfl⟩ := (loadImage_state_iff bytes s t).1 h
  exact wf_setBytes Config.hw bytes hl hm

/-- The bytes after an image is taken (R186). -/
theorem byteAt_loadImage {bytes : List Byte} {s t : State} (h : s.loadImage bytes = some t)
    (hm : Memory.wf Config.hw s.mem = true) (a : Nat) : t.byteAt a =
      if Config.hw.programOrigin ≤ a ∧ a < Config.hw.programOrigin + bytes.length
      then bytes.getD (a - Config.hw.programOrigin) 0#8 else s.byteAt a := by
  obtain ⟨hl, rfl⟩ := (loadImage_state_iff bytes s t).1 h
  exact get_setBytes Config.hw a bytes hl hm

/-! ### Placing a word where the next fetch reads -/

/-- Where `placeWord` puts the word. -/
def placeAddr (s : State) : Nat :=
  if s.pc.toNat + 1 < Config.hw.memSize then s.pc.toNat else Config.hw.programOrigin

theorem placeAddr_lt (s : State) : placeAddr s + 1 < Config.hw.memSize := by
  unfold placeAddr
  split
  · assumption
  · decide

theorem placeWord_pc (op : Word) (s : State) : (placeWord op s).pc.toNat = placeAddr s := by
  have h : placeAddr s + 1 < 4096 := placeAddr_lt s
  show (BitVec.ofNat 16 (placeAddr s)).toNat = _
  rw [BitVec.toNat_ofNat]; omega

/-- Placing a word keeps the canonical form. -/
theorem wf_placeWord (op : Word) {s : State} (hm : Memory.wf Config.hw s.mem = true) :
    Memory.wf Config.hw (placeWord op s).mem = true :=
  wf_setBytes Config.hw _ (show placeAddr s + 2 ≤ Config.hw.memSize from placeAddr_lt s) hm

/-- The bytes after a word is placed. -/
theorem byteAt_placeWord (op : Word) {s : State} (hm : Memory.wf Config.hw s.mem = true) (a : Nat) :
    (placeWord op s).byteAt a =
      if a = placeAddr s then (wordBytes Config.hw.fetchOrder op).1
      else if a = placeAddr s + 1 then (wordBytes Config.hw.fetchOrder op).2 else s.byteAt a := by
  refine (get_setBytes Config.hw a [_, _]
    (show placeAddr s + 2 ≤ Config.hw.memSize from placeAddr_lt s) hm).trans ?_
  simp only [List.length_cons, List.length_nil]
  change (if placeAddr s ≤ a ∧ a < placeAddr s + 2 then _ else _) = _
  by_cases h0 : a = placeAddr s
  · subst h0; rw [if_pos (by omega), if_pos rfl]; simp [placeAddr]
  · by_cases h1 : a = placeAddr s + 1
    · subst h1; rw [if_pos (by omega), if_neg h0, if_pos rfl]; simp [placeAddr]
    · rw [if_neg (by omega), if_neg h0, if_neg h1]; rfl

/-- The placed word is the word the next fetch reads. -/
theorem wordAt_placeWord (op : Word) {s : State} (hm : Memory.wf Config.hw s.mem = true) :
    (placeWord op s).wordAt (placeWord op s).pc.toNat = op := by
  have e0 := byteAt_placeWord op hm (placeAddr s)
  have e1 := byteAt_placeWord op hm (placeAddr s + 1)
  rw [if_pos rfl] at e0
  rw [if_neg (by omega), if_pos rfl] at e1
  rw [placeWord_pc]
  show assembleWord Config.hw.fetchOrder ((placeWord op s).byteAt _) ((placeWord op s).byteAt _) = op
  rw [e0, e1, assembleWord_wordBytes]

/-! ### One operation of the system -/

/-- Everything an operation that has a move can do (R185). -/
theorem perform_cases {o : Operation} {y y' : System} {a : Response} (h : perform o y = .next (y', a)) :
    (∃ keys, o = .reset keys ∧ y' = launch keys ∧ a = .ok) ∨
    (∃ bytes s, o = .loadImage bytes ∧ y.phase = .built ∧ y.machine.loadImage bytes = some s ∧
      y' = ⟨s, .loaded⟩ ∧ a = .ok) ∨
    (∃ bytes, o = .loadImage bytes ∧ y.phase = .built ∧ y.machine.loadImage bytes = none ∧ y' = y ∧
      a = .imageRefused) ∨
    (∃ keys, o = .keyWrite keys ∧ y' = ⟨y.machine.keyWrite keys, y.phase⟩ ∧ a = .ok) ∨
    (o = .tickDelay ∧ y' = ⟨y.machine.tickDelay, y.phase⟩ ∧ a = .ok) ∨
    (o = .tickSound ∧ y' = ⟨y.machine.tickSound, y.phase⟩ ∧ a = .ok) ∨
    (o = .displayRead ∧ y' = y ∧ a = .grid y.machine.displayRead) ∨
    (∃ s, o = .cycle ∧ step y.machine = .next s ∧ y' = ⟨s, .running⟩ ∧ a = cycleResponse s) := by
  cases o with
  | reset keys => cases h; exact .inl ⟨keys, rfl, rfl, rfl⟩
  | loadImage bytes =>
    rw [perform, performLoad] at h
    split at h
    · rename_i hp
      split at h
      · rename_i s hs; cases h; exact .inr (.inl ⟨bytes, s, rfl, hp, hs, rfl, rfl⟩)
      · rename_i hs; cases h; exact .inr (.inr (.inl ⟨bytes, rfl, hp, hs, rfl, rfl⟩))
    · cases h
    · cases h
  | keyWrite keys => cases h; exact .inr (.inr (.inr (.inl ⟨keys, rfl, rfl, rfl⟩)))
  | tickDelay => cases h; exact .inr (.inr (.inr (.inr (.inl ⟨rfl, rfl, rfl⟩))))
  | tickSound => cases h; exact .inr (.inr (.inr (.inr (.inr (.inl ⟨rfl, rfl, rfl⟩)))))
  | displayRead => cases h; exact .inr (.inr (.inr (.inr (.inr (.inr (.inl ⟨rfl, rfl, rfl⟩))))))
  | cycle =>
    rw [perform, performCycle] at h
    split at h
    · rename_i s hs; cases h; exact .inr (.inr (.inr (.inr (.inr (.inr (.inr ⟨s, rfl, hs, rfl, rfl⟩))))))
    · cases h
    · cases h

end Sys2Proof.Machine
end

