-- ==== Sys2Proof/Laws/PerInstr.lean ====
section
/-! SUPPORT. Families of facts about every instruction as syntax, one lemma for each constructor. -/

/-! The word of an instruction matches the instruction's own row of the opcode table (30_encoding.md R86,
R91). -/
namespace Sys2Proof.Laws.WordMatchesRow

/-- Some row of the table bears the instruction's name and matches its word. -/
def Statement (i : Instr) : Prop := ∃ r ∈ opcodeTable, r.mnemonic = i.mnemonic ∧ r.hits (encode i) = true

/-- A row whose mask keeps the first digit. -/
theorem of_digit {i : Instr} (d : BitVec 4) (name : String) (hn : name = i.mnemonic)
    (h : ⟨name, d ++ 0#12, 0xF000#16⟩ ∈ opcodeTable)
    (hd : fieldD1 (encode i) = d) : Statement i :=
  ⟨_, h, hn, beq_iff_eq.2 ((and_F000_eq_iff _ d).2 hd)⟩

/-- A row whose mask keeps the first and the last digit. -/
theorem of_digits {i : Instr} (d l : BitVec 4) (name : String) (hn : name = i.mnemonic)
    (h : ⟨name, d ++ 0#4 ++ 0#4 ++ l, 0xF00F#16⟩ ∈ opcodeTable)
    (hd : fieldD1 (encode i) = d ∧ fieldD4 (encode i) = l) : Statement i :=
  ⟨_, h, hn, beq_iff_eq.2 ((and_F00F_eq_iff _ d l).2 hd)⟩

theorem nop : Statement .nop := by unfold Statement; decide
theorem cls : Statement .cls := by unfold Statement; decide
theorem ret : Statement .ret := by unfold Statement; decide
theorem jp (nnn : Addr12) : Statement (.jp nnn) := of_digit 1#4 "JP" rfl (by decide) (fieldD1_nnn _ _)
theorem call (nnn : Addr12) : Statement (.call nnn) := of_digit 2#4 "CALL" rfl (by decide) (fieldD1_nnn _ _)
theorem seImm (x : RegNum) (kk : Byte) : Statement (.seImm x kk) :=
  of_digit 3#4 "SE_IMM" rfl (by decide) (fieldD1_kk _ _ _)
theorem sneImm (x : RegNum) (kk : Byte) : Statement (.sneImm x kk) :=
  of_digit 4#4 "SNE_IMM" rfl (by decide) (fieldD1_kk _ _ _)
theorem seReg (x y : RegNum) : Statement (.seReg x y) :=
  of_digits 5#4 0#4 "SE_REG" rfl (by decide) ⟨fieldD1_digits _ _ _ _, fieldD4_digits _ _ _ _⟩
theorem ldImm (x : RegNum) (kk : Byte) : Statement (.ldImm x kk) :=
  of_digit 6#4 "LD_IMM" rfl (by decide) (fieldD1_kk _ _ _)
theorem addImm (x : RegNum) (kk : Byte) : Statement (.addImm x kk) :=
  of_digit 7#4 "ADD_IMM" rfl (by decide) (fieldD1_kk _ _ _)
theorem ldReg (x y : RegNum) : Statement (.ldReg x y) :=
  of_digits 8#4 0#4 "LD_REG" rfl (by decide) ⟨fieldD1_digits _ _ _ _, fieldD4_digits _ _ _ _⟩
theorem orReg (x y : RegNum) : Statement (.orReg x y) :=
  of_digits 8#4 1#4 "OR" rfl (by decide) ⟨fieldD1_digits _ _ _ _, fieldD4_digits _ _ _ _⟩
theorem andReg (x y : RegNum) : Statement (.andReg x y) :=
  of_digits 8#4 2#4 "AND" rfl (by decide) ⟨fieldD1_digits _ _ _ _, fieldD4_digits _ _ _ _⟩
theorem xorReg (x y : RegNum) : Statement (.xorReg x y) :=
  of_digits 8#4 3#4 "XOR" rfl (by decide) ⟨fieldD1_digits _ _ _ _, fieldD4_digits _ _ _ _⟩
theorem addReg (x y : RegNum) : Statement (.addReg x y) :=
  of_digits 8#4 4#4 "ADD_REG" rfl (by decide) ⟨fieldD1_digits _ _ _ _, fieldD4_digits _ _ _ _⟩

end Sys2Proof.Laws.WordMatchesRow

/-! The operands of an instruction are those of its format (30_encoding.md R83). -/
namespace Sys2Proof.Laws.OperandsFollowFormat

/-- The operands' widths are the format's. -/
def Statement (i : Instr) : Prop := i.operands.map Prod.fst = i.format.widths

theorem nop : Statement .nop := rfl
theorem cls : Statement .cls := rfl
theorem ret : Statement .ret := rfl
theorem jp (nnn : Addr12) : Statement (.jp nnn) := rfl
theorem call (nnn : Addr12) : Statement (.call nnn) := rfl
theorem seImm (x : RegNum) (kk : Byte) : Statement (.seImm x kk) := rfl
theorem sneImm (x : RegNum) (kk : Byte) : Statement (.sneImm x kk) := rfl
theorem seReg (x y : RegNum) : Statement (.seReg x y) := rfl
theorem ldImm (x : RegNum) (kk : Byte) : Statement (.ldImm x kk) := rfl
theorem addImm (x : RegNum) (kk : Byte) : Statement (.addImm x kk) := rfl
theorem ldReg (x y : RegNum) : Statement (.ldReg x y) := rfl
theorem orReg (x y : RegNum) : Statement (.orReg x y) := rfl
theorem andReg (x y : RegNum) : Statement (.andReg x y) := rfl
theorem xorReg (x y : RegNum) : Statement (.xorReg x y) := rfl
theorem addReg (x y : RegNum) : Statement (.addReg x y) := rfl

end Sys2Proof.Laws.OperandsFollowFormat
end

