-- ==== Sys2Proof/Tests/Slice0.lean ====
section
/-! SUPPORT. The model's own tests: ill-formed configurations are refused, words written from the spec's
encodings decode to what they stand for, the vectors of 95_test_vectors.md come out in one step, and every
hypothesis of the obligations is met by a concrete state.  A test's name ends in the vector it is taken from. -/

namespace Sys2Proof.Machine

/-! ### Helpers -/

/-- Registers set one by one. -/
def State.withRegs (s : State) (rs : List (RegNum × Byte)) : State := rs.foldl (fun s r => s.setReg r.1 r.2) s

/-- A stack pointer, and stack slots from 0 up. -/
def State.withStack (s : State) (sp : Nat) (slots : List Addr) : State :=
  s.setStack (Vector.ofFn fun j => slots.getD j.val 0#16) sp

end Sys2Proof.Machine

namespace Sys2Proof.Tests

open Sys2Proof.Machine

/-- The machine after reset with a word at its program counter, 0x200. -/
def boot (w : Nat) : State := State.reset.withFetchWord 16 w

/-- The same with the program counter and the word elsewhere. -/
def bootAt (pc w : Nat) : State := (State.reset.setPc (BitVec.ofNat 16 pc)).withFetchWord 16 w

/-- The state after one step. -/
def after (s : State) : Option State :=
  match step s with
  | .next t => some t
  | _ => none

/-- The system after one operation, and its answer. -/
def performed (o : Operation) (y : System) : Option (System × Response) :=
  match perform o y with
  | .next z => some z
  | _ => none

/-- What the next cycle runs, as a check that computes. -/
def runsCheck (s : State) (i : Instr) : Bool :=
  decide (s.fault = none) && decide (s.pc.toNat + 1 < Config.hw.memSize) &&
    decide (decode (s.wordAt s.pc.toNat) = .ok i)

theorem runs_of_check {s : State} {i : Instr} (h : runsCheck s i = true) : s.Runs i := by
  simp only [runsCheck, Bool.and_eq_true, decide_eq_true_eq] at h
  exact ⟨h.1, h.2⟩

/-! ### The configuration's checks (00_scope.md R7), each with a configuration that it refuses -/

theorem test_wellFormed_hw : Config.hw.wellFormed = true := by decide
theorem test_wellFormed_glyphAtZero : ({ glyphBase := 1 } : Config).glyphAtZero = false := by decide
theorem test_wellFormed_glyphBelowOrigin : ({ programOrigin := 0x4E } : Config).glyphBelowOrigin = false := by decide
theorem test_wellFormed_firstFetchFits : ({ memSize := 0x201 } : Config).firstFetchFits = false := by decide
theorem test_wellFormed_pcCannotWrap : ({ memSize := 65533 } : Config).pcCannotWrap = false := by decide
theorem test_wellFormed_hasStack : ({ stackCapacity := 0 } : Config).hasStack = false := by decide
theorem test_wellFormed_hasColumns : ({ displayW := 0 } : Config).hasColumns = false := by decide
theorem test_wellFormed_hasRows : ({ displayH := 0 } : Config).hasRows = false := by decide
theorem test_wellFormed_hasKeys : ({ keyCount := 0 } : Config).hasKeys = false := by decide
theorem test_wellFormed_refuses_each :
    [({ glyphBase := 1 } : Config), { programOrigin := 0x4E }, { memSize := 0x201 }, { memSize := 65533 },
      { stackCapacity := 0 }, { displayW := 0 }, { displayH := 0 }, { keyCount := 0 }].all
      (fun c => !c.wellFormed) = true := by decide

/-! ### Decoding: every constructor, by a word of 95_test_vectors.md 2.1 -/

theorem test_decode_TD1 : decode 0x0000#16 = .ok .nop := by decide
theorem test_decode_TD2 : decode 0x00E0#16 = .ok .cls := by decide
theorem test_decode_TD3 : decode 0x00EE#16 = .ok .ret := by decide
theorem test_decode_TD10 : decode 0x1000#16 = .ok (.jp 0x000#12) := by decide
theorem test_decode_TD11 : decode 0x1FFF#16 = .ok (.jp 0xFFF#12) := by decide
theorem test_decode_TD12 : decode 0x2ABC#16 = .ok (.call 0xABC#12) := by decide
theorem test_decode_TD13 : decode 0x3F00#16 = .ok (.seImm 15#4 0x00#8) := by decide
theorem test_decode_TD14 : decode 0x4A5A#16 = .ok (.sneImm 10#4 0x5A#8) := by decide
theorem test_decode_TD15 : decode 0x5120#16 = .ok (.seReg 1#4 2#4) := by decide
theorem test_decode_TD18 : decode 0x6FAA#16 = .ok (.ldImm 15#4 0xAA#8) := by decide
theorem test_decode_TD19 : decode 0x7E01#16 = .ok (.addImm 14#4 0x01#8) := by decide
theorem test_decode_TD20 :
    [0x8AB0#16, 0x8AB1#16, 0x8AB2#16, 0x8AB3#16, 0x8AB4#16].map (fun w => (decode w).toOption) =
      [some (.ldReg 10#4 11#4), some (.orReg 10#4 11#4), some (.andReg 10#4 11#4), some (.xorReg 10#4 11#4),
        some (.addReg 10#4 11#4)] := by decide

/-- TD4 to TD9, TD16, TD17, TD21 to TD24: words that are no instruction, each rejected under its own name. -/
theorem test_decode_unimplemented :
    [0x0001#16, 0x00E1#16, 0x00EF#16, 0x00FE#16, 0x0100#16, 0x0EE0#16, 0x5121#16, 0x512F#16, 0x8AB5#16, 0x8AB6#16,
      0x8AB7#16, 0x8ABE#16, 0x8ABF#16, 0x9120#16, 0xA000#16, 0xB123#16, 0xC0FF#16, 0xD015#16, 0xE09E#16, 0xF007#16,
      0xFFFF#16].all (fun w => decide (decode w = .error (.unimplemented w))) = true := by decide

/-- The words of R91 for the examples of the instruction rules. -/
theorem test_encode_examples :
    [encode (.ldImm 0#4 0x05#8), encode (.addReg 0#4 1#4), encode (.call 0x210#12), encode (.seReg 1#4 2#4),
      encode (.xorReg 15#4 0#4), encode .ret] =
      [0x6005#16, 0x8014#16, 0x2210#16, 0x5120#16, 0x8F03#16, 0x00EE#16] := by decide

/-- Fewer bytes than a word are rejected; a second word is left over (R80). -/
theorem test_decodeBytes_lengths :
    decodeBytes .highFirst [] = .error (.truncated 0) ∧ decodeBytes .highFirst [0x60#8] = .error (.truncated 1) ∧
    decodeBytes .highFirst [0x60#8, 0x05#8, 0x61#8, 0x03#8] = .ok (.ldImm 0#4 0x05#8, [0x61#8, 0x03#8]) := by decide

/-! ### Reset (10_state.md R42) and the glyph table (20_memory.md R54) -/

theorem test_reset_memory_wf : Memory.wf Config.hw State.reset.mem = true := by decide

/-- The first byte of each glyph's row in R54, at the address the table gives, and the two ends. -/
theorem test_reset_glyph_rows :
    [0x000, 0x005, 0x00A, 0x00F, 0x014, 0x019, 0x01E, 0x023, 0x028, 0x02D, 0x032, 0x037, 0x03C, 0x041, 0x046,
      0x04B].map State.reset.byteAt =
      [0xF0#8, 0x20#8, 0xF0#8, 0xF0#8, 0x90#8, 0xF0#8, 0xF0#8, 0xF0#8, 0xF0#8, 0xF0#8, 0xF0#8, 0xE0#8, 0xF0#8, 0xE0#8,
        0xF0#8, 0xF0#8] ∧
    [0x04F, 0x050, 0x1FF, 0x200, 0xFFF].map State.reset.byteAt = [0x80#8, 0#8, 0#8, 0#8, 0#8] ∧
    Config.hw.glyphLen = 80 := by decide

/-! ### One step, by the vectors of 95_test_vectors.md -/

theorem test_nop_TZ2 :
    let s := { ((boot 0x0000).withRegs [(3#4, 0x7F#8), (15#4, 1#8)]).withStack 2 [0x222#16, 0x246#16] with
      dt := 9#8 }
    after s = some (s.setPc 0x202#16) := by decide +kernel
theorem test_nop_TF4 : (after (bootAt 0xFFE 0x0000)).map (·.pc) = some 0x1000#16 := by decide
theorem test_cls_TZ4 :
    let d := (((State.reset.disp.set 0 (State.reset.disp[0].set 31 true)).set 63 (State.reset.disp[63].set 0 true)).set 17
      (State.reset.disp[17].set 5 true))
    let s := ((boot 0x00E0).withRegs [(0#4, 0x11#8), (15#4, 1#8)]).setDisp d
    s.pixel 17 5 = some true ∧ s.pixel 63 0 = some true ∧
      after s = some ((s.setDisp State.reset.disp).setPc 0x202#16) := by decide +kernel
theorem test_jp_TC4 : (after (boot 0x1FFF)).map (fun t => (t.pc, t.fault)) = some (0xFFF#16, none) := by decide
theorem test_jp_TF3 : (after (bootAt 0x201 0x1234)).map (·.pc) = some 0x234#16 := by decide
theorem test_call_TC7 :
    (after ((boot 0x2300).withStack 15 (List.replicate 15 0x111#16))).map
      (fun t => (t.slot 15, t.slot 14, t.sp, t.pc, t.fault)) =
      some (0x202#16, 0x111#16, 16, 0x300#16, none) := by decide +kernel
theorem test_call_TC13 :
    (after (bootAt 0xFFE 0x2300)).map (fun t => (t.slot 0, t.sp, t.pc)) = some (0x1000#16, 1, 0x300#16) := by
  decide +kernel
theorem test_ret_TC9 :
    (after ((boot 0x00EE).withStack 1 [0x204#16])).map (fun t => (t.sp, t.pc, t.slot 0)) =
      some (0, 0x204#16, 0x204#16) := by decide +kernel
theorem test_ret_TC10 :
    (after ((boot 0x00EE).withStack 2 [0x204#16, 0x345#16])).map (fun t => (t.sp, t.pc)) = some (1, 0x345#16) := by
  decide +kernel
theorem test_seImm_TS1 : (after ((boot 0x3342).withRegs [(3#4, 0x42#8)])).map (·.pc) = some 0x204#16 := by decide
theorem test_seImm_TS12 : (after (bootAt 0xFFE 0x3000)).map (fun t => (t.pc, t.fault)) = some (0x1002#16, none) := by
  decide
theorem test_sneImm_TS5 : (after ((boot 0x4342).withRegs [(3#4, 0x42#8)])).map (·.pc) = some 0x202#16 := by decide
theorem test_sneImm_TS6 : (after ((boot 0x43FF).withRegs [(3#4, 0x42#8)])).map (·.pc) = some 0x204#16 := by decide
theorem test_seReg_TS8 :
    (after ((boot 0x5120).withRegs [(1#4, 0x7F#8), (2#4, 0x80#8)])).map (·.pc) = some 0x202#16 := by decide
theorem test_seReg_TS9 : (after ((boot 0x5440).withRegs [(4#4, 0xC3#8)])).map (·.pc) = some 0x204#16 := by decide
theorem test_ldImm_TI2 : (after ((boot 0x6700).withRegs [(7#4, 0xFF#8)])).map (·.reg 7#4) = some 0x00#8 := by decide
theorem test_ldImm_TI3 : (after (boot 0x6FAA)).map (·.reg flagReg) = some 0xAA#8 := by decide
theorem test_addImm_TI6 :
    (after ((boot 0x7003).withRegs [(0#4, 0xFE#8), (15#4, 1#8)])).map (fun t => (t.reg 0#4, t.reg flagReg)) =
      some (0x01#8, 0x01#8) := by decide
theorem test_addImm_TI11 : (after ((boot 0x7F01).withRegs [(15#4, 0xFF#8)])).map (·.reg flagReg) = some 0x00#8 := by
  decide
theorem test_ldReg_TA1 :
    (after ((boot 0x8230).withRegs [(3#4, 0xAB#8)])).map (fun t => (t.reg 2#4, t.reg 3#4)) =
      some (0xAB#8, 0xAB#8) := by decide
theorem test_ldReg_TA2 : (after ((boot 0x8F30).withRegs [(3#4, 0xAB#8)])).map (·.reg flagReg) = some 0xAB#8 := by
  decide
theorem test_orReg_TA4 :
    (after ((boot 0x8011).withRegs [(0#4, 0xF0#8), (1#4, 0x0F#8), (15#4, 9#8)])).map
      (fun t => (t.reg 0#4, t.reg 1#4, t.reg flagReg)) = some (0xFF#8, 0x0F#8, 0x09#8) := by decide
theorem test_andReg_TA5 :
    (after ((boot 0x8012).withRegs [(0#4, 0xFC#8), (1#4, 0x3F#8)])).map (·.reg 0#4) = some 0x3C#8 := by decide
theorem test_xorReg_TA6 :
    (after ((boot 0x8013).withRegs [(0#4, 0xFF#8), (1#4, 0x0F#8)])).map (·.reg 0#4) = some 0xF0#8 := by decide
theorem test_xorReg_TA7 : (after ((boot 0x8003).withRegs [(0#4, 0x5A#8)])).map (·.reg 0#4) = some 0x00#8 := by decide
theorem test_addReg_TA9 :
    [(0xFF#8, 0x01#8), (0xFF#8, 0xFF#8), (0x80#8, 0x80#8), (0x7F#8, 0x80#8), (0x00#8, 0x00#8)].map (fun p =>
      (after ((boot 0x8014).withRegs [(0#4, p.1), (1#4, p.2), (15#4, 7#8)])).map
        (fun t => (t.reg 0#4, t.reg flagReg))) =
      [some (0x00#8, 1#8), some (0xFE#8, 1#8), some (0x00#8, 1#8), some (0xFF#8, 0#8), some (0x00#8, 0#8)] := by
  decide +kernel
theorem test_addReg_TA10_TA12_TA13 :
    (after ((boot 0x8F14).withRegs [(15#4, 5#8), (1#4, 3#8)])).map (·.reg flagReg) = some 0#8 ∧
    (after ((boot 0x80F4).withRegs [(0#4, 0xFF#8), (15#4, 1#8)])).map (fun t => (t.reg 0#4, t.reg flagReg)) =
      some (0#8, 1#8) ∧
    (after ((boot 0x8FF4).withRegs [(15#4, 0x80#8)])).map (·.reg flagReg) = some 1#8 := by decide

/-! ### Faults -/

theorem test_fault_TF2 :
    after (boot 0x0560) = some (((boot 0x0560).setPc 0x202#16).setFault
      (some ⟨.unimplementedOpcode, 0x200#16, some 0x0560#16⟩)) := by decide +kernel
theorem test_fault_TF5_TF8 :
    [0xFFF#16, 0x1000#16, 0x1002#16, 0xFFFF#16].all (fun pc => decide (after (State.reset.setPc pc) =
      some ((State.reset.setPc pc).setFault (some ⟨.memoryOutOfBounds, pc, none⟩)))) = true := by decide +kernel
theorem test_fault_TC8 :
    let s := (boot 0x2300).withStack 16 (List.replicate 16 0x111#16)
    after s = some ((s.setPc 0x202#16).setFault (some ⟨.stackOverflow, 0x200#16, some 0x2300#16⟩)) := by
  decide +kernel
theorem test_fault_TC12 :
    let s := (boot 0x00EE).withStack 0 [0x204#16]
    after s = some ((s.setPc 0x202#16).setFault (some ⟨.stackUnderflow, 0x200#16, some 0x00EE#16⟩)) := by
  decide +kernel
theorem test_fault_TU3 :
    (after ((boot 0x5011).withRegs [(0#4, 0x12#8), (1#4, 0x12#8)])).map (fun t => (t.pc, t.fault)) =
      some (0x202#16, some ⟨.unimplementedOpcode, 0x200#16, some 0x5011#16⟩) := by decide
/-- The glyph table is executed like any memory: digit 1's first word is a call, digit 0's is no instruction. -/
theorem test_glyph_TF9_TF10 :
    (after (State.reset.setPc 0x005#16)).map (fun t => (t.slot 0, t.sp, t.pc)) = some (0x007#16, 1, 0x060#16) ∧
    (after (State.reset.setPc 0x000#16)).map (fun t => (t.pc, t.fault)) =
      some (0x002#16, some ⟨.unimplementedOpcode, 0x000#16, some 0xF090#16⟩) := by decide +kernel
theorem test_halted_TH12 :
    let s := { (boot 0x6005) with fault := some ⟨.unimplementedOpcode, 0x1FE#16, some 0xA22A#16⟩ }
    performed .cycle ⟨s, .running⟩ =
      some (⟨s, .running⟩, .fault ⟨.unimplementedOpcode, 0x1FE#16, some 0xA22A#16⟩) := by decide +kernel

/-! ### Host operations -/

theorem test_ticks_TH1_TH5 :
    (State.tickDelay { State.reset with dt := 3#8 }).dt = 2#8 ∧ (State.tickDelay { State.reset with dt := 1#8 }).dt = 0#8 ∧
    (State.tickDelay State.reset).dt = 0#8 ∧
    (State.tickSound { State.reset with dt := 5#8, st := 2#8 }).st = 1#8 ∧
    (State.tickSound { State.reset with dt := 5#8, st := 2#8 }).dt = 5#8 ∧ (State.tickSound State.reset).st = 0#8 := by
  decide
theorem test_loadImage_TH9 :
    (performed (.loadImage [0x12#8, 0x00#8, 0xAB#8]) (launch State.reset.key)).map
      (fun z => ([0x200, 0x201, 0x202, 0x203].map z.1.machine.byteAt, z.2, Memory.wf Config.hw z.1.machine.mem)) =
      some ([0x12#8, 0x00#8, 0xAB#8, 0x00#8], .ok, true) := by decide
theorem test_loadImage_TH11 :
    performed (.loadImage (List.replicate 3585 0x11#8)) (launch State.reset.key) =
      some (launch State.reset.key, .imageRefused) := by decide +kernel
theorem test_reset_TH14 :
    performed (.reset State.reset.key) ⟨{ ((boot 0xA22A).withRegs [(3#4, 0x77#8)]).withStack 4 [] with
      fault := some ⟨.unimplementedOpcode, 0x200#16, some 0xA22A#16⟩ }, .running⟩ =
      some (launch State.reset.key, .ok) := by decide +kernel

/-! ### Witnesses: states and operands that meet the hypotheses of the obligations -/

theorem witness_DecodeOfEncode : (Instr.addReg 15#4 15#4).wellFormed = true ∧ Instr.nop.wellFormed = true := by decide
theorem witness_EncodeOfDecode : decode 0x8FF4#16 = .ok (.addReg 15#4 15#4) := by decide
theorem witness_MemRead : Config.hw.memSize < 4095 + 2 ∧ 4094 + 2 ≤ Config.hw.memSize := by decide
theorem witness_MemWrite :
    Memory.wf Config.hw [(0xFFF, 0x12#8)] = true ∧ Config.hw.memSize < 0xFFF + [0x12#8, 0x34#8].length ∧
      0xFFE + [0x12#8, 0x34#8].length ≤ Config.hw.memSize := by decide
theorem witness_CanonicalMemory :
    Memory.wf Config.hw [(0x000, 0x01#8), (0x200, 0x12#8)] = true ∧
      ∀ a, Memory.get Config.hw [(0x000, 0x01#8), (0x200, 0x12#8)] a =
        Memory.get Config.hw (Memory.set Config.hw [(0x000, 0x01#8)] 0x200 0x12#8) a :=
  ⟨by decide, fun _ => rfl⟩
theorem witness_FetchOrder :
    0xFFE + 1 < Config.hw.memSize ∧ Config.hw.memSize ≤ 0xFFF + 1 ∧
      0xFFE + 1 < ({ fetchOrder := .lowFirst } : Config).memSize := by decide
theorem witness_FetchReads :
    (bootAt 0xFFE 0).pc.toNat + 1 < Config.hw.memSize ∧
      Config.hw.memSize ≤ (State.reset.setPc 0xFFF#16).pc.toNat + 1 := by decide
/-- The last address that can be fetched from, in this hardware and in the largest memory R7 allows. -/
theorem witness_PcAdditions :
    Config.hw.wellFormed = true ∧ (State.reset.setPc 0xFFE#16).pc.toNat + 1 < Config.hw.memSize ∧
      (∃ z, fetch (State.reset.setPc 0xFFE#16) = .ok z) ∧
      ({ memSize := 65532 } : Config).wellFormed = true ∧
      (State.reset.setPc 65530#16).pc.toNat + 1 < ({ memSize := 65532 } : Config).memSize :=
  ⟨by decide, by decide, ⟨_, rfl⟩, by decide, by decide⟩
theorem witness_StepRuns :
    (boot 0x6005).fault = none ∧ (boot 0x6005).pc.toNat + 1 < Config.hw.memSize ∧
      decode ((boot 0x6005).wordAt (boot 0x6005).pc.toNat) = .ok (.ldImm 0#4 5#8) := by decide
theorem witness_Halted :
    (State.reset.setFault (some ⟨.memoryOutOfBounds, 0xFFF#16, none⟩)).fault = some ⟨.memoryOutOfBounds, 0xFFF#16, none⟩ ∧
      Operation.tickDelay ≠ .cycle ∧ ∀ bytes, Operation.tickDelay ≠ .loadImage bytes :=
  ⟨rfl, by decide, fun _ h => by cases h⟩
theorem witness_EveryCycleCompletes : ∀ bytes, Operation.cycle ≠ .loadImage bytes := fun _ h => by cases h

/-- A state that runs each instruction. -/
theorem witness_Runs :
    (boot 0x0000).Runs .nop ∧ (boot 0x00E0).Runs .cls ∧ (boot 0x00EE).Runs .ret ∧
    (boot 0x1FFF).Runs (.jp 0xFFF#12) ∧ (boot 0x2300).Runs (.call 0x300#12) ∧
    (boot 0x3F00).Runs (.seImm 15#4 0#8) ∧ (bootAt 0xFFE 0x4A5A).Runs (.sneImm 10#4 0x5A#8) ∧
    (bootAt 0xFFE 0x5120).Runs (.seReg 1#4 2#4) ∧ (boot 0x6FAA).Runs (.ldImm 15#4 0xAA#8) ∧
    (boot 0x7E01).Runs (.addImm 14#4 1#8) ∧ (boot 0x8AB0).Runs (.ldReg 10#4 11#4) ∧
    (boot 0x8AB1).Runs (.orReg 10#4 11#4) ∧ (boot 0x8AB2).Runs (.andReg 10#4 11#4) ∧
    (boot 0x8AB3).Runs (.xorReg 10#4 11#4) ∧ (boot 0x8AB4).Runs (.addReg 10#4 11#4) := by
  refine ⟨?_, ?_, ?_, ?_, ?_, ?_, ?_, ?_, ?_, ?_, ?_, ?_, ?_, ?_, ?_⟩ <;> exact runs_of_check (by decide)

/-- `CALL` and `RET` at the ends of the stack: 0, 1, 15 and 16 live slots. -/
theorem witness_StackEnds :
    ((boot 0x2300).withStack 15 []).Runs (.call 0x300#12) ∧ ((boot 0x2300).withStack 15 []).sp < Config.hw.stackCapacity ∧
    ((boot 0x2300).withStack 16 []).Runs (.call 0x300#12) ∧ ((boot 0x2300).withStack 16 []).sp = Config.hw.stackCapacity ∧
    ((boot 0x00EE).withStack 1 [0x204#16]).Runs .ret ∧ 0 < ((boot 0x00EE).withStack 1 [0x204#16]).sp ∧
    ((boot 0x00EE).withStack 16 []).Runs .ret ∧ ((boot 0x00EE).withStack 16 []).sp ≤ Config.hw.stackCapacity ∧
    (boot 0x00EE).Runs .ret ∧ (boot 0x00EE).sp = 0 :=
  ⟨runs_of_check (by decide), by decide, runs_of_check (by decide), by decide, runs_of_check (by decide), by decide,
    runs_of_check (by decide), by decide, runs_of_check (by decide), by decide⟩

/-- A fetch that succeeds on a word that is no instruction, and a fetch that cannot. -/
theorem witness_NoInstruction :
    (bootAt 0xFFE 0xFFFF).Fetches ∧ (∀ i, decode ((bootAt 0xFFE 0xFFFF).wordAt (bootAt 0xFFE 0xFFFF).pc.toNat) ≠ .ok i) ∧
    (bootAt 0xFFE 0xFFFF).sp ≤ Config.hw.stackCapacity ∧
    (State.reset.setPc 0xFFF#16).fault = none ∧ Config.hw.memSize ≤ (State.reset.setPc 0xFFF#16).pc.toNat + 1 := by
  have e : decode ((bootAt 0xFFE 0xFFFF).wordAt (bootAt 0xFFE 0xFFFF).pc.toNat) = .error (.unimplemented 0xFFFF#16) := by
    decide
  refine ⟨⟨by decide, by decide⟩, ?_, by decide, by decide, by decide⟩
  intro i h
  rw [e] at h
  cases h

/-- Each of the four faults is latched by a cycle from a state that is not halted, with `sp <= S`. -/
theorem witness_EachFaultLatches :
    [State.reset.setPc 0xFFF#16, boot 0xFFFF, (boot 0x2300).withStack 16 [], boot 0x00EE].map (fun s =>
      (s.fault, decide (s.sp ≤ Config.hw.stackCapacity), (after s).bind fun t => t.fault.map (·.cause))) =
      [(none, true, some .memoryOutOfBounds), (none, true, some .unimplementedOpcode), (none, true, some .stackOverflow),
        (none, true, some .stackUnderflow)] := by decide +kernel

theorem witness_CycleFaultsExactlyWhen : State.reset.fault = none := by decide

/-- A latched record before a tick, before a reset, and no record before a key write. -/
theorem witness_Latch :
    let h := State.reset.setFault (some ⟨.memoryOutOfBounds, 0xFFF#16, none⟩)
    performed .tickDelay ⟨h, .running⟩ = some (⟨h, .running⟩, .ok) ∧ (∀ keys, Operation.tickDelay ≠ .reset keys) ∧
    performed (.reset State.reset.key) ⟨h, .running⟩ = some (launch State.reset.key, .ok) ∧
    performed (.keyWrite State.reset.key) ⟨State.reset, .running⟩ = some (⟨State.reset, .running⟩, .ok) := by
  refine ⟨by decide +kernel, ?_, by decide +kernel, by decide +kernel⟩
  intro _ h
  cases h

/-- `ADD Vx,Vy`, and a move whose destination is not register 15, complete. -/
theorem witness_FlagRegisterWriters :
    (∃ t, exec (.addReg 15#4 15#4) State.reset = .next t) ∧ (∃ t, exec (.ldReg 0#4 15#4) State.reset = .next t) ∧
    (∀ x y, Instr.ldReg 0#4 15#4 ≠ .addReg x y) ∧ ∀ y, Instr.ldReg 0#4 15#4 ≠ .ldReg flagReg y :=
  ⟨⟨_, rfl⟩, ⟨_, rfl⟩, fun _ _ h => (by cases h), fun y h => absurd (Instr.ldReg.inj h).1 (by decide)⟩

/-- Two states that agree on the register `SE V0,kk` reads and differ in another. -/
theorem witness_RegistersReadAndWritten :
    (∀ r ∈ regsRead (.seImm 0#4 5#8), (State.reset.setReg 5#4 9#8).reg r = State.reset.reg r) ∧
    OnlyChanges [.v] State.reset (State.reset.setReg 5#4 9#8) ∧
    (State.reset.setReg 5#4 9#8).reg 5#4 ≠ State.reset.reg 5#4 ∧
    (∃ z, perform .tickSound (launch State.reset.key) = .next z) ∧ Operation.tickSound ≠ .cycle ∧
    ∀ keys, Operation.tickSound ≠ .reset keys := by
  refine ⟨by decide, ?_, by decide, ⟨_, rfl⟩, by decide, fun _ h => by cases h⟩
  intro e he
  cases e
  case v => simp at he
  all_goals first | rfl | (intro a; rfl) | (intro a b; rfl)

theorem witness_CycleWritesOnlyItsElements :
    (∃ t, step (boot 0x00E0) = .next t) ∧ (boot 0x00E0).Runs .cls :=
  ⟨⟨_, rfl⟩, runs_of_check (by decide)⟩

/-- Two states that differ in everything a cycle does not read. -/
theorem witness_AgreeOnCore :
    let s := boot 0x00E0
    let s' := { s with i := 7#16, dt := 9#8, st := 8#8, key := Vector.replicate Config.hw.keyCount true,
                       disp := Vector.replicate Config.hw.displayW (Vector.replicate Config.hw.displayH true) }
    AgreeOnCore s s' ∧ s'.i ≠ s.i ∧ s'.dt ≠ s.dt := by
  refine ⟨?_, by decide, by decide⟩
  intro e he
  cases e
  case i => simp [coreElements] at he
  case dt => simp [coreElements] at he
  case st => simp [coreElements] at he
  case disp => simp [coreElements] at he
  case key => simp [coreElements] at he
  all_goals first | rfl | (intro a; rfl)

/-- Each operation that commutes with a cycle. -/
theorem witness_TicksAndKeysCommute :
    ∀ o ∈ [Operation.tickDelay, .tickSound, .keyWrite State.reset.key],
      o = .tickDelay ∨ o = .tickSound ∨ ∃ keys, o = .keyWrite keys := by
  simp

/-- A call and its return, at depth 0 and at depth 15, and to the last address that can be fetched. -/
theorem witness_CallThenReturn :
    let image := Memory.setBytes Config.hw [] 0xFFE [0x00#8, 0xEE#8]
    let s := (State.reset.setMem image).withFetchWord 16 0x2FFE
    let s' := s.withStack 15 []
    s.Runs (.call 0xFFE#12) ∧ s.sp < Config.hw.stackCapacity ∧ (0xFFE#12).toNat + 2 ≤ Config.hw.memSize ∧
    s.wordAt (0xFFE#12).toNat = 0x00EE#16 ∧
    s'.Runs (.call 0xFFE#12) ∧ s'.sp < Config.hw.stackCapacity ∧ s'.wordAt (0xFFE#12).toNat = 0x00EE#16 :=
  ⟨runs_of_check (by decide), by decide, by decide, by decide, runs_of_check (by decide), by decide, by decide⟩

theorem witness_StackBoundary :
    (List.replicate 16 0x111#16).length = Config.hw.stackCapacity ∧ ([] : List Addr).length = 0 := by decide
theorem witness_FinishedNormally : (boot 0x1200).FinishedNormally :=
  ⟨0x200#12, runs_of_check (by decide), by decide⟩

/-- The smallest and the largest image fit, one byte more does not. -/
theorem witness_Images :
    Config.hw.programOrigin + ([] : List Byte).length ≤ Config.hw.memSize ∧
    Config.hw.programOrigin + (List.replicate 3584 0x11#8).length ≤ Config.hw.memSize ∧
    Config.hw.memSize < Config.hw.programOrigin + (List.replicate 3585 0x11#8).length ∧
    (launch State.reset.key).phase = .built ∧ Memory.wf Config.hw (launch State.reset.key).machine.mem = true := by
  simp only [List.length_replicate]; decide

/-- Each clause about later images: a cycle, an image taken, an image refused for its length, and operations after a
load that are no reset. -/
theorem witness_LaterImage :
    (∃ z, perform .cycle (launch State.reset.key) = .next z ∧ z.1.phase ≠ .built) ∧
    (∃ z, perform (.loadImage [0x12#8]) (launch State.reset.key) = .next (z, .ok) ∧ z.phase ≠ .built) ∧
    performed (.loadImage (List.replicate 3585 0x11#8)) (launch State.reset.key) =
      some (launch State.reset.key, .imageRefused) ∧
    (∃ z, runOperations [.tickDelay, .keyWrite State.reset.key, .cycle] ⟨State.reset, .loaded⟩ = .next z) ∧
    ∀ o ∈ [Operation.tickDelay, .keyWrite State.reset.key, .cycle], ∀ keys, o ≠ .reset keys := by
  refine ⟨⟨_, rfl, by decide⟩, ⟨_, rfl, by decide⟩, test_loadImage_TH11, ⟨_, rfl⟩, fun o ho keys => ?_⟩
  simp only [List.mem_cons, List.not_mem_nil, or_false] at ho
  rcases ho with rfl | rfl | rfl <;> exact fun h => by cases h

theorem witness_ImageLeavesGlyphTable :
    Config.hw.wellFormed = true ∧ Memory.wf Config.hw [] = true ∧
      (∃ m, loadImage Config.hw [0x12#8, 0x34#8] [] = some m) ∧ 0x4F < Config.hw.glyphBase + Config.hw.glyphLen :=
  ⟨by decide, by decide, ⟨_, rfl⟩, by decide⟩
theorem witness_PlacedWord :
    65535 < 65536 ∧ Memory.wf Config.hw (bootAt 0xFFE 0xFFFF).mem = true ∧
      (bootAt 0xFFE 0xFFFF).fault = none ∧ (bootAt 0xFFE 0xFFFF).pc.toNat + 1 < Config.hw.memSize := by decide

/-- A running state with one live return address meets the invariant, and takes a step. -/
theorem witness_StepKeepsTheInvariant :
    ((boot 0x00EE).withStack 1 [0x1000#16]).Inv ∧ ∃ t, step ((boot 0x00EE).withStack 1 [0x1000#16]) = .next t := by
  refine ⟨⟨by decide, by decide, fun j hj => ?_, by decide, trivial⟩, ⟨_, rfl⟩⟩
  have h0 : j = 0 := Nat.lt_one_iff.1 hj
  subst h0
  decide

/-- A halted state meets the invariant: its record names the word before `pc`, which is no instruction. -/
theorem witness_HaltedInvariant :
    ((boot 0xFFFF).advance.setFault (some ⟨.unimplementedOpcode, 0x200#16, some 0xFFFF#16⟩)).Inv := by
  refine ⟨by decide, by decide, fun j hj => absurd hj (Nat.not_lt_zero j), by decide, ?_⟩
  exact ⟨by decide, by decide, by decide, by decide⟩

/-- A launch meets the invariant, and takes an image. -/
theorem witness_OperationsKeepTheInvariant :
    (launch State.reset.key).Inv ∧ ∃ z, perform (.loadImage [0x12#8]) (launch State.reset.key) = .next z := by
  refine ⟨⟨⟨by decide, by decide, fun j hj => absurd hj (Nat.not_lt_zero j), by decide, trivial⟩,
    fun _ => ⟨rfl, rfl, rfl⟩⟩, ⟨_, rfl⟩⟩

/-- A full and an empty stack at the entry of a meaning, `pc` being `fpc + 2`; the smallest `fpc` and the last. -/
theorem witness_ExecuteFaultRecords :
    (((boot 0x2300).withStack 16 []).setPc 0x002#16).pc = 0x000#16 + 2#16 ∧
    (((boot 0x2300).withStack 16 []).setPc 0x002#16).sp = Config.hw.stackCapacity ∧
    (State.reset.setPc 0x1000#16).pc = 0xFFE#16 + 2#16 ∧ (State.reset.setPc 0x1000#16).sp = 0 := by decide

/-- A launch with its elements at their reset values, and an operation on it. -/
theorem witness_OperationsKeepUntouched :
    (launch State.reset.key).Inv ∧ (launch State.reset.key).machine.Untouched ∧
      ∃ z, perform .cycle (launch State.reset.key) = .next z :=
  ⟨witness_OperationsKeepTheInvariant.1, ⟨rfl, rfl, rfl, rfl, fun _ _ => rfl⟩, ⟨_, rfl⟩⟩

theorem witness_ReachableMachines :
    ∃ z, runOperations [.loadImage [0x12#8, 0x00#8], .tickDelay, .cycle, .reset State.reset.key]
      (launch State.reset.key) = .next z := ⟨_, rfl⟩
theorem witness_NopSlide : Config.hw.programOrigin + 2 * 1792 ≤ Config.hw.memSize := by decide

end Sys2Proof.Tests
end

section
/-! PROOFS. The family 10_state.md: how a cycle leaves `pc` (R26), who sets and clears the latch (R37), which
registers an instruction reads and writes (R23), and reset (R42). -/

namespace Sys2Proof.Machine

variable {s s' : State}

/-! ### The reset state (R42) -/

@[simp] theorem resetWithKeys_reg (keys : Vector Bool Config.hw.keyCount) (r : RegNum) :
    (State.resetWithKeys keys).reg r = 0#8 := Vector.getElem_replicate _

@[simp] theorem resetWithKeys_byteAt (keys : Vector Bool Config.hw.keyCount) (a : Nat) :
    (State.resetWithKeys keys).byteAt a = resetByte Config.hw a := rfl

theorem resetWithKeys_stack (keys : Vector Bool Config.hw.keyCount) {j : Nat} (h : j < Config.hw.stackCapacity) :
    (State.resetWithKeys keys).stack[j]? = some 0#16 := by
  simp [State.resetWithKeys, h]

theorem resetWithKeys_pixel (keys : Vector Bool Config.hw.keyCount) {c r : Nat} (hc : c < Config.hw.displayW)
    (hr : r < Config.hw.displayH) : (State.resetWithKeys keys).pixel c r = some false :=
  clearDisplay_pixel hc hr

/-- Settles O43: `Reset` is the launch state, whatever the system was, and that state has each value. -/
theorem resetSetsEveryElement : Obligations.ResetSetsEveryElement := by
  intro y keys
  exact ⟨launch keys, rfl, resetWithKeys_byteAt keys, resetWithKeys_reg keys, rfl, rfl,
    fun _ => resetWithKeys_stack keys, rfl, rfl, rfl, fun _ _ => resetWithKeys_pixel keys, rfl, rfl⟩

/-! ### What the host's operations leave alone (R41) -/

/-- An operation that is neither `Cycle` nor `Reset` writes only memory, the timers and the keys. -/
theorem perform_host_onlyChanges {o : Operation} {y y' : System} {a : Response}
    (h : perform o y = .next (y', a)) (hc : o ≠ .cycle) (hr : ∀ keys, o ≠ .reset keys) :
    OnlyChanges [.mem, .dt, .st, .key] y.machine y'.machine := by
  rcases perform_cases h with ⟨keys, ho, -⟩ | ⟨bytes, t, -, -, ht, rfl, -⟩ | ⟨_, -, -, -, rfl, -⟩ |
    ⟨keys, -, rfl, -⟩ | ⟨-, rfl, -⟩ | ⟨-, rfl, -⟩ | ⟨-, rfl, -⟩ | ⟨_, ho, -⟩
  · exact absurd ho (hr keys)
  · obtain ⟨-, rfl⟩ := (loadImage_state_iff bytes y.machine t).1 ht
    exact (onlyChanges_setMem _ _).mono (by simp)
  · exact .refl _ _
  · exact (onlyChanges_setKey _ keys).mono (by simp)
  · exact (onlyChanges_setDt _ _).mono (by simp)
  · exact (onlyChanges_setSt _ _).mono (by simp)
  · exact .refl _ _
  · exact absurd ho hc

/-! ### The latch (R37) -/

/-- A halted core's cycle leaves the machine as it is (R181). -/
theorem step_of_halted (h : s.fault ≠ none) : step s = .next s := by
  rw [step_eq, if_pos h]

/-- A cycle of a halted core leaves the machine as it is, seen from the system (R181). -/
theorem perform_cycle_of_halted {y y' : System} {a : Response} (h : perform .cycle y = .next (y', a))
    (hf : y.machine.fault ≠ none) : y'.machine = y.machine := by
  simp only [perform, performCycle, step_of_halted hf] at h
  cases h; rfl

/-- Settles O23: `Reset` makes the launch state, a cycle of a halted core does nothing, and no other operation
writes the latch. -/
theorem latchIsSetByCyclesAndClearedByReset : Obligations.LatchIsSetByCyclesAndClearedByReset := by
  intro o y y' a h
  have cleared : ∀ keys, o = .reset keys → y'.machine.fault = none := by
    rintro keys rfl; cases h; rfl
  have kept : o ≠ .cycle → (∀ keys, o ≠ .reset keys) → y'.machine.fault = y.machine.fault := fun hc hr =>
    perform_host_onlyChanges h hc hr .fault (by decide)
  refine ⟨fun r hf hr => ?_, cleared, fun hf hc => ?_⟩
  · by_cases hc : o = .cycle
    · subst hc
      rw [perform_cycle_of_halted h (by simp [hf]), hf]
    · rw [kept hc hr, hf]
  · by_cases hr : ∃ keys, o = .reset keys
    · exact hr.elim cleared
    · rw [kept hc (not_exists.1 hr), hf]

/-! ### Where a cycle leaves `pc` (R26) -/

/-- The cycle that fetches a word that is no instruction (R210, R215). -/
theorem step_of_unimplemented (h : s.Fetches) (hd : ∀ i, decode (s.wordAt s.pc.toNat) ≠ .ok i) :
    step s = .next (s.advance.setFault (some ⟨.unimplementedOpcode, s.pc, some (s.wordAt s.pc.toNat)⟩)) := by
  rw [step_eq, if_neg (not_not.2 h.1), if_pos h.2]
  cases e : decode (s.wordAt s.pc.toNat) with
  | ok i => exact absurd e (hd i)
  | error r => rfl

/-- The cycle that cannot fetch (R213, R215). -/
theorem step_of_out_of_range (hf : s.fault = none) (hp : Config.hw.memSize ≤ s.pc.toNat + 1) :
    step s = .next (s.setFault (some ⟨.memoryOutOfBounds, s.pc, none⟩)) := by
  rw [step_eq, if_neg (not_not.2 hf), if_neg (Nat.not_lt.2 hp)]

/-- The target of a jump or a call is `nnn`, widened (R84). -/
theorem target_eq_ofNat (nnn : Addr12) : target nnn = BitVec.ofNat 16 nnn.toNat :=
  (BitVec.ofNat_toNat 16 nnn).symm

/-- A skip after the fetch leaves `pc` at `fpc + 4` where it is taken, else at `fpc + 2` (R133). -/
theorem skipIf_advance_pc (condition : Bool) (s : State) :
    (skipIf condition s.advance).pc = if condition then s.pc + 4#16 else s.pc + 2#16 := by
  rw [skipIf_pc, advance_pc, BitVec.add_assoc]; rfl

/-- A skip writes `pc` only (R133). -/
theorem onlyChanges_skipIf (condition : Bool) (s : State) : OnlyChanges [.pc] s (skipIf condition s) := by
  rw [skipIf_keeps]; exact onlyChanges_setPc s _

/-- A push or a pop followed by a jump writes the stack and `pc` only. -/
theorem onlyChanges_setStack_setPc (s : State) (k : Vector Addr Config.hw.stackCapacity) (n : Nat) (a : Addr) :
    OnlyChanges [.pc, .stack, .sp, .fault] s ((s.setStack k n).setPc a) :=
  ((onlyChanges_setStack s k n).mono (by simp)).trans ((onlyChanges_setPc _ a).mono (by simp))

/-- `CALL` jumps where it can push, and else leaves `pc` as it is; the frame of both outcomes (R114, R215). -/
theorem exec_call_pc_frame (nnn : Addr12) (s : State) : ∃ t, exec (.call nnn) s = .next t ∧
    (t.pc = if s.sp < Config.hw.stackCapacity then target nnn else s.pc) ∧
    OnlyChanges [.pc, .stack, .sp, .fault] s t := by
  by_cases h : s.sp < Config.hw.stackCapacity
  · exact ⟨_, execCall_of_lt nnn s h, (if_pos h).symm, onlyChanges_setStack_setPc s _ _ _⟩
  · exact ⟨_, execCall_of_le nnn s (Nat.not_lt.1 h), (if_neg h).symm, (onlyChanges_setFault s _).mono (by simp)⟩

/-- `RET` returns where it can pop, and else leaves `pc` as it is; the frame of both outcomes (R112, R215). -/
theorem exec_ret_pc_frame (s : State) : ∃ t, exec .ret s = .next t ∧
    (t.pc = if 0 < s.sp then s.slot (s.sp - 1) else s.pc) ∧
    OnlyChanges [.pc, .stack, .sp, .fault] s t := by
  by_cases h : 0 < s.sp
  · exact ⟨_, execRet_of_pos s h, (if_pos h).symm, onlyChanges_setStack_setPc s _ _ _⟩
  · exact ⟨_, execRet_of_zero s (Nat.eq_zero_of_not_pos h), (if_neg h).symm,
      (onlyChanges_setFault s _).mono (by simp)⟩

/-- Settles O16: the cycle is the instruction after the advance to `fpc + 2`, or one of the two faults of the
fetch and the decoder. -/
theorem pcAfterCycle : Obligations.PcAfterCycle := by
  intro s hf _
  refine ⟨fun i hi => ?_, fun hp hd => ⟨_, step_of_unimplemented ⟨hf, hp⟩ hd, rfl⟩,
    fun hp => ⟨_, step_of_out_of_range hf hp, rfl⟩⟩
  rw [step_runs hi]
  cases i with
  | seImm x kk => exact ⟨_, rfl, by simp [skipIf_advance_pc]⟩
  | sneImm x kk => exact ⟨_, rfl, by simp [skipIf_advance_pc]⟩
  | seReg x y => exact ⟨_, rfl, by simp [skipIf_advance_pc]⟩
  | jp nnn => exact ⟨_, rfl, target_eq_ofNat nnn⟩
  | call nnn =>
    obtain ⟨t, ht, hpc, -⟩ := exec_call_pc_frame nnn s.advance
    rw [target_eq_ofNat] at hpc
    exact ⟨t, ht, hpc⟩
  | ret =>
    obtain ⟨t, ht, hpc, -⟩ := exec_ret_pc_frame s.advance
    exact ⟨t, ht, hpc⟩
  | _ => exact ⟨_, rfl, rfl⟩

/-! ### The same update of two states that agree -/

theorem OnlyChanges.setPc {es : List Element} (h : OnlyChanges es s s') (a : Addr) :
    OnlyChanges es (s.setPc a) (s'.setPc a) := fun e he => by
  have := h e he
  cases e <;> simp_all [Unchanged]

theorem OnlyChanges.setStack {es : List Element} (h : OnlyChanges es s s')
    (k : Vector Addr Config.hw.stackCapacity) (n : Nat) :
    OnlyChanges es (s.setStack k n) (s'.setStack k n) := fun e he => by
  have := h e he
  cases e <;> simp_all [Unchanged]

theorem OnlyChanges.setDisp {es : List Element} (h : OnlyChanges es s s')
    (d : Display Config.hw.displayW Config.hw.displayH) :
    OnlyChanges es (s.setDisp d) (s'.setDisp d) := fun e he => by
  have := h e he
  cases e <;> simp_all [Unchanged, State.pixel]

theorem OnlyChanges.setFault {es : List Element} (h : OnlyChanges es s s') (f : Option FaultRecord) :
    OnlyChanges es (s.setFault f) (s'.setFault f) := fun e he => by
  have := h e he
  cases e <;> simp_all [Unchanged]

/-- Two stacks that read the same slot by slot are the same. -/
theorem OnlyChanges.stack_eq {es : List Element} (h : OnlyChanges es s s') (he : .stack ∉ es) :
    s'.stack = s.stack := by
  apply Vector.ext
  intro j hj
  rw [← slot_of_lt s hj, ← slot_of_lt s' hj]
  exact h .stack he j

/-! ### Which registers an instruction reads and writes (R23) -/

/-- Two states that agree on the registers listed and on everything but the registers. -/
structure AgreeWithRegs (rs : List RegNum) (s s' : State) : Prop where
  reg_eq : ∀ r ∈ rs, s'.reg r = s.reg r
  rest : OnlyChanges [.v] s s'

namespace AgreeWithRegs

variable {rs qs : List RegNum}

theorem mono (h : AgreeWithRegs rs s s') (hs : qs ⊆ rs) : AgreeWithRegs qs s s' :=
  ⟨fun r hr => h.reg_eq r (hs hr), h.rest⟩

theorem reg_eq_head {r : RegNum} (h : AgreeWithRegs (r :: rs) s s') : s'.reg r = s.reg r :=
  h.reg_eq r List.mem_cons_self

theorem reg_eq_second {r q : RegNum} (h : AgreeWithRegs (r :: q :: rs) s s') : s'.reg q = s.reg q :=
  h.reg_eq q (by simp)

theorem pc_eq (h : AgreeWithRegs rs s s') : s'.pc = s.pc := h.rest .pc (by decide)

theorem sp_eq (h : AgreeWithRegs rs s s') : s'.sp = s.sp := h.rest .sp (by decide)

theorem stack_eq (h : AgreeWithRegs rs s s') : s'.stack = s.stack := h.rest.stack_eq (by decide)

theorem setPc (h : AgreeWithRegs rs s s') (a : Addr) : AgreeWithRegs rs (s.setPc a) (s'.setPc a) :=
  ⟨h.reg_eq, h.rest.setPc a⟩

theorem setStack (h : AgreeWithRegs rs s s') (k : Vector Addr Config.hw.stackCapacity) (n : Nat) :
    AgreeWithRegs rs (s.setStack k n) (s'.setStack k n) := ⟨h.reg_eq, h.rest.setStack k n⟩

theorem setDisp (h : AgreeWithRegs rs s s') (d : Display Config.hw.displayW Config.hw.displayH) :
    AgreeWithRegs rs (s.setDisp d) (s'.setDisp d) := ⟨h.reg_eq, h.rest.setDisp d⟩

theorem raiseInExecute (h : AgreeWithRegs rs s s') (cause : Fault) (i : Instr) :
    AgreeWithRegs rs (raiseInExecute cause i s) (raiseInExecute cause i s') := by
  refine ⟨h.reg_eq, ?_⟩
  rw [Machine.raiseInExecute, Machine.raiseInExecute, raise_eq, raise_eq, h.pc_eq]
  exact h.rest.setFault _

/-- The same byte written to a register of both makes them agree on that register too. -/
theorem setReg (h : AgreeWithRegs rs s s') (r : RegNum) {b b' : Byte} (hb : b' = b) :
    AgreeWithRegs (r :: rs) (s.setReg r b) (s'.setReg r b') := by
  subst hb
  refine ⟨fun q hq => ?_, fun e he => ?_⟩
  · rw [setReg_reg, setReg_reg]
    split
    · rfl
    · rename_i hne; exact h.reg_eq q ((List.mem_cons.1 hq).resolve_left hne)
  · have := h.rest e he
    cases e <;> simp_all [Unchanged]

/-- The same skip. -/
theorem skipIf (h : AgreeWithRegs rs s s') {p p' : Bool} (hp : p' = p) :
    AgreeWithRegs rs (skipIf p s) (skipIf p' s') := by
  subst hp
  cases p' with
  | false => exact h
  | true => simpa only [Machine.skipIf, State.advance, h.pc_eq, if_true] using h.setPc (s.pc + 2#16)

end AgreeWithRegs

/-- What leaves the registers alone leaves alone those outside any list. -/
theorem OnlyChanges.onlyRegsChange {es : List Element} (h : OnlyChanges es s s') (hv : .v ∉ es)
    (rs : List RegNum) : OnlyRegsChange rs s s' := fun r _ => h .v hv r

theorem OnlyRegsChange.trans {rs : List RegNum} {s t u : State} (h : OnlyRegsChange rs s t)
    (h' : OnlyRegsChange rs t u) : OnlyRegsChange rs s u := fun r hr => (h' r hr).trans (h r hr)

theorem OnlyRegsChange.mono {rs qs : List RegNum} (h : OnlyRegsChange rs s s') (hs : rs ⊆ qs) :
    OnlyRegsChange qs s s' := fun r hr => h r fun hr' => hr (hs hr')

/-- An instruction writes no register but those of its row. -/
theorem exec_onlyRegsChange {i : Instr} {t : State} (h : exec i s = .next t) :
    OnlyRegsChange (regsWritten i) s t := by
  cases i with
  | nop => cases h; exact fun _ _ => rfl
  | cls => cases h; exact (onlyChanges_setDisp s _).onlyRegsChange (by decide) _
  | jp => cases h; exact (onlyChanges_setPc s _).onlyRegsChange (by decide) _
  | ret =>
    obtain ⟨u, hu, -, frame⟩ := exec_ret_pc_frame s
    cases hu.symm.trans h
    exact frame.onlyRegsChange (by decide) _
  | call nnn =>
    obtain ⟨u, hu, -, frame⟩ := exec_call_pc_frame nnn s
    cases hu.symm.trans h
    exact frame.onlyRegsChange (by decide) _
  | seImm | sneImm | seReg => cases h; exact (onlyChanges_skipIf _ s).onlyRegsChange (by decide) _
  | ldImm | addImm | ldReg | orReg | andReg | xorReg => cases h; exact onlyRegsChange_setReg s _ _
  | addReg x y =>
    cases h
    exact ((onlyRegsChange_setReg s x _).mono (by simp [regsWritten])).trans
      ((onlyRegsChange_setReg _ flagReg _).mono (by simp [regsWritten]))

/-- What an instruction leaves depends on no register but those of its row. -/
theorem exec_agreeWithRegs (i : Instr) (h : AgreeWithRegs (regsRead i) s s') :
    ∃ t t', exec i s = .next t ∧ exec i s' = .next t' ∧ AgreeWithRegs (regsWritten i) t t' := by
  have rest : AgreeWithRegs [] s s' := h.mono (List.nil_subset _)
  cases i with
  | nop => exact ⟨s, s', rfl, rfl, h⟩
  | cls => exact ⟨_, _, rfl, rfl, h.setDisp _⟩
  | ret =>
    by_cases hs : s.sp = 0
    · exact ⟨_, _, execRet_of_zero s hs, execRet_of_zero s' (h.sp_eq.trans hs), h.raiseInExecute _ _⟩
    · have hs := Nat.pos_of_ne_zero hs
      refine ⟨_, _, execRet_of_pos s hs, execRet_of_pos s' (h.sp_eq ▸ hs), ?_⟩
      rw [State.slot, State.slot, h.stack_eq, h.sp_eq]
      exact (h.setStack _ _).setPc _
  | jp nnn => exact ⟨_, _, rfl, rfl, h.setPc _⟩
  | call nnn =>
    by_cases hs : s.sp < Config.hw.stackCapacity
    · refine ⟨_, _, execCall_of_lt nnn s hs, execCall_of_lt nnn s' (h.sp_eq ▸ hs), ?_⟩
      simp only [h.stack_eq, h.sp_eq, h.pc_eq]
      exact (h.setStack _ _).setPc _
    · have hs := Nat.not_lt.1 hs
      exact ⟨_, _, execCall_of_le nnn s hs, execCall_of_le nnn s' (h.sp_eq ▸ hs), h.raiseInExecute _ _⟩
  | seImm x kk => exact ⟨_, _, rfl, rfl, rest.skipIf (by rw [h.reg_eq_head])⟩
  | sneImm x kk => exact ⟨_, _, rfl, rfl, rest.skipIf (by rw [h.reg_eq_head])⟩
  | seReg x y => exact ⟨_, _, rfl, rfl, rest.skipIf (by rw [h.reg_eq_head, h.reg_eq_second])⟩
  | ldImm x kk => exact ⟨_, _, rfl, rfl, rest.setReg x rfl⟩
  | addImm x kk => exact ⟨_, _, rfl, rfl, rest.setReg x (by rw [h.reg_eq_head])⟩
  | ldReg x y => exact ⟨_, _, rfl, rfl, rest.setReg x h.reg_eq_head⟩
  | orReg x y | andReg x y | xorReg x y =>
    exact ⟨_, _, rfl, rfl, rest.setReg x (by rw [h.reg_eq_head, h.reg_eq_second])⟩
  | addReg x y =>
    have hx := h.reg_eq_head
    have hy := h.reg_eq_second
    exact ⟨_, _, rfl, rfl, ((rest.setReg x (by rw [hx, hy])).setReg flagReg (by rw [hx, hy])).mono
      (by simp [regsWritten])⟩

/-- Settles O36: an instruction keeps the agreement of two states, from the registers it reads to those it writes; the
host's operations leave the registers alone. -/
theorem registersReadAndWritten : Obligations.RegistersReadAndWritten := by
  refine ⟨fun i s s' hr hv => ?_, fun o y y' a h hc hr r _ => perform_host_onlyChanges h hc hr .v (by decide) r⟩
  obtain ⟨t, t', ht, ht', agree⟩ := exec_agreeWithRegs i ⟨hr, hv⟩
  exact ⟨t, t', ht, ht', exec_onlyRegsChange ht, exec_onlyRegsChange ht', agree.reg_eq, agree.rest⟩

end Sys2Proof.Machine
end

section
/-! PROOFS. The family 20_memory.md: what `MemRead` and `MemWrite` give within memory and beyond it (R57 to R59),
and the fetch (R60, R61). -/

namespace Sys2Proof.Machine

/-! ### The bounds of memory (R57 to R59) -/

/-- A read with a byte at N or beyond raises (R57, R59). -/
theorem memRead_of_lt {c : Config} {a n : Nat} (m : Memory) (h : c.memSize < a + n) :
    memRead c m a n = .error .memoryOutOfBounds := if_pos h

/-- A read within memory gives the bytes from `a` up (R57). -/
theorem memRead_of_le {c : Config} {a n : Nat} (m : Memory) (h : a + n ≤ c.memSize) :
    memRead c m a n = .ok ((List.range n).map fun j => Memory.get c m (a + j)) := if_neg (Nat.not_lt.2 h)

/-- A write with a byte at N or beyond raises (R58, R59). -/
theorem memWrite_of_lt {c : Config} {a : Nat} {bytes : List Byte} (m : Memory)
    (h : c.memSize < a + bytes.length) : memWrite c m a bytes = .error .memoryOutOfBounds := if_pos h

/-- A write within memory stores every byte (R58). -/
theorem memWrite_of_le {c : Config} {a : Nat} {bytes : List Byte} (m : Memory)
    (h : a + bytes.length ≤ c.memSize) : memWrite c m a bytes = .ok (Memory.setBytes c m a bytes) :=
  if_neg (Nat.not_lt.2 h)

/-! ### Reading after a write of a list of bytes (R58) -/

section
variable {c : Config} {m : Memory} {a : Nat} {bytes : List Byte}

/-- The byte stored at `a + j` is byte `j` of the list. -/
theorem get_setBytes_inside (hm : Memory.wf c m = true) (ha : a + bytes.length ≤ c.memSize) {j : Nat}
    (hj : j < bytes.length) : bytes[j]? = some (Memory.get c (Memory.setBytes c m a bytes) (a + j)) := by
  rw [get_setBytes c _ bytes ha hm, if_pos (by omega), Nat.add_sub_cancel_left, List.getD_eq_getElem _ _ hj,
    List.getElem?_eq_getElem hj]

/-- An address before or after the bytes written reads as before. -/
theorem get_setBytes_outside (hm : Memory.wf c m = true) (ha : a + bytes.length ≤ c.memSize) {k : Nat}
    (hk : k < a ∨ a + bytes.length ≤ k) :
    Memory.get c (Memory.setBytes c m a bytes) k = Memory.get c m k := by
  rw [get_setBytes c k bytes ha hm, if_neg (by omega)]

end

/-- Settles O8: the memory a write within bounds leaves is read inside and outside the bytes written. -/
theorem memWriteStoresOrRaises : Obligations.MemWriteStoresOrRaises := by
  intro c m a bytes hm
  exact ⟨memWrite_of_lt m, fun h => ⟨_, memWrite_of_le m h, fun _ => get_setBytes_inside hm h,
    fun _ => get_setBytes_outside hm h⟩⟩

/-- Settles O7: a read within bounds is the list of the bytes at `a`, `a + 1` and so on. -/
theorem memReadGivesBytesOrRaises : Obligations.MemReadGivesBytesOrRaises := by
  intro c m a n
  refine ⟨memRead_of_lt m, fun h => ⟨_, memRead_of_le m h, by simp, fun j hj => ?_⟩⟩
  rw [List.getElem?_map, List.getElem?_range hj, Option.map_some]

/-! ### The fetch (R60, R61) -/

/-- The word at `a` as a number: the byte at the lower address is the high-order one (R56). -/
theorem wordAt_toNat (s : State) (a : Nat) :
    (s.wordAt a).toNat = (s.byteAt a).toNat * 256 + (s.byteAt (a + 1)).toNat :=
  assembleWord_highFirst_toNat _ _

/-- A fetch in range gives the word at `pc` and advances (R61). -/
theorem fetch_of_lt {s : State} (h : s.pc.toNat + 1 < Config.hw.memSize) :
    fetch s = .ok (s.wordAt s.pc.toNat, s.advance) := by
  rw [fetch_eq, if_pos h]

/-- A fetch with a byte at N or beyond raises (R60). -/
theorem fetch_of_le {s : State} (h : Config.hw.memSize ≤ s.pc.toNat + 1) :
    fetch s = .error .memoryOutOfBounds := by
  rw [fetch_eq, if_neg (Nat.not_lt.2 h)]

/-- Settles O11: a fetch in range is the word at `pc` and the advance, which writes `pc` only. -/
theorem fetchReadsAndAdvances : Obligations.FetchReadsAndAdvances := fun s =>
  ⟨fun h => ⟨_, s.advance, fetch_of_lt h, wordAt_toNat s _, BitVec.toNat_add s.pc 2#16, onlyChanges_advance s⟩,
    fetch_of_le⟩

end Sys2Proof.Machine
end

section
/-! PROOFS. The family 30_encoding.md: the words of the assembly table and their bytes (R81, R91), and the decoder
against the opcode table (R86, R88). -/

namespace Sys2Proof

variable {op : Word} {i : Instr} {r : OpcodeRow}

/-! ### The word of an instruction as the assembly table writes it (R91) -/

/-- Format I of R83: the immediate below the register number. -/
theorem toNat_digits_kk_shiftLeft (a x : BitVec 4) (k : Byte) :
    (a ++ x ++ k : Word).toNat = a.toNat * 4096 + (x.toNat <<< 8) + k.toNat := by
  rw [toNat_digits_kk, Nat.shiftLeft_eq]

/-- Format R of R83: the two fixed digits, and the register numbers between them. -/
theorem toNat_digits_shiftLeft (a x y d : BitVec 4) :
    (a ++ x ++ y ++ d : Word).toNat = a.toNat * 4096 + d.toNat + (x.toNat <<< 8) + (y.toNat <<< 4) := by
  rw [toNat_digits, Nat.shiftLeft_eq, Nat.shiftLeft_eq]; omega

/-- The first of the two stored bytes is the high-order one (R81). -/
theorem wordBytes_highFirst_fst_toNat (op : Word) : (wordBytes .highFirst op).1.toNat = op.toNat / 256 := by
  have := op.isLt
  simp only [wordBytes, BitVec.extractLsb'_toNat, Nat.shiftRight_eq_div_pow]; omega

/-- The second of the two stored bytes is the low-order one, the field kk (R81, R82). -/
theorem wordBytes_highFirst_snd_toNat (op : Word) : (wordBytes .highFirst op).2.toNat = op.toNat % 256 :=
  fieldKk_toNat op

/-- Settles O3: each row is the number of its format's concatenation, at the digits of the row. -/
theorem encodingFollowsAssemblyTable : Obligations.EncodingFollowsAssemblyTable :=
  ⟨fun i => ⟨wordBytes_highFirst_fst_toNat (encode i), wordBytes_highFirst_snd_toNat (encode i)⟩, fun nnn x y kk =>
    ⟨rfl, rfl, rfl, toNat_digit_nnn 1#4 nnn, toNat_digit_nnn 2#4 nnn, toNat_digits_kk_shiftLeft 3#4 x kk,
      toNat_digits_kk_shiftLeft 4#4 x kk, toNat_digits_shiftLeft 5#4 x y 0#4, toNat_digits_kk_shiftLeft 6#4 x kk,
      toNat_digits_kk_shiftLeft 7#4 x kk, toNat_digits_shiftLeft 8#4 x y 0#4, toNat_digits_shiftLeft 8#4 x y 1#4,
      toNat_digits_shiftLeft 8#4 x y 2#4, toNat_digits_shiftLeft 8#4 x y 3#4, toNat_digits_shiftLeft 8#4 x y 4#4⟩⟩

/-! ### A decoded word is the word of its instruction (R83) -/

/-- Format A, rebuilt from the known first digit. -/
theorem digit_nnn_of_fieldD1 {d : BitVec 4} (h : fieldD1 op = d) : (d ++ fieldNnn op : Word) = op :=
  h ▸ digit_nnn_eq op

/-- Format I, rebuilt from the known first digit. -/
theorem digits_kk_of_fieldD1 {d : BitVec 4} (h : fieldD1 op = d) : (d ++ fieldD2 op ++ fieldKk op : Word) = op :=
  h ▸ digits_kk_eq op

/-- Format R, rebuilt from the known first and last digits. -/
theorem digits_of_fieldD1_fieldD4 {d l : BitVec 4} (h : fieldD1 op = d) (h' : fieldD4 op = l) :
    (d ++ fieldD2 op ++ fieldD3 op ++ l : Word) = op :=
  h ▸ h' ▸ digits_eq op

/-- No format has an unused bit: the fields taken from a word make up the word again. -/
theorem encode_of_decode (h : decode op = .ok i) : encode i = op := by
  rcases Machine.decode_cases h with ⟨hop, rfl⟩ | ⟨hop, rfl⟩ | ⟨hop, rfl⟩ | ⟨d, rfl⟩ | ⟨d, rfl⟩ | ⟨d, rfl⟩ |
    ⟨d, rfl⟩ | ⟨d, l, rfl⟩ | ⟨d, rfl⟩ | ⟨d, rfl⟩ | ⟨d, l, rfl⟩ | ⟨d, l, rfl⟩ | ⟨d, l, rfl⟩ | ⟨d, l, rfl⟩ | ⟨d, l, rfl⟩
  · exact hop.symm
  · exact hop.symm
  · exact hop.symm
  · exact digit_nnn_of_fieldD1 d
  · exact digit_nnn_of_fieldD1 d
  · exact digits_kk_of_fieldD1 d
  · exact digits_kk_of_fieldD1 d
  · exact digits_of_fieldD1_fieldD4 d l
  · exact digits_kk_of_fieldD1 d
  · exact digits_kk_of_fieldD1 d
  · exact digits_of_fieldD1_fieldD4 d l
  · exact digits_of_fieldD1_fieldD4 d l
  · exact digits_of_fieldD1_fieldD4 d l
  · exact digits_of_fieldD1_fieldD4 d l
  · exact digits_of_fieldD1_fieldD4 d l

/-! ### The rows of the opcode table (R86) -/

/-- A row whose mask keeps every bit matches one word. -/
theorem hits_word {name : String} {w : Word} (h : OpcodeRow.hits ⟨name, w, 0xFFFF#16⟩ op = true) : op = w :=
  (BitVec.and_allOnes (x := op)).symm.trans (beq_iff_eq.1 h)

/-- A row whose mask keeps the first digit matches that digit. -/
theorem hits_digit {name : String} (d : BitVec 4) (h : OpcodeRow.hits ⟨name, d ++ 0#12, 0xF000#16⟩ op = true) :
    fieldD1 op = d :=
  (and_F000_eq_iff op d).1 (beq_iff_eq.1 h)

/-- A row whose mask keeps the first and the last digit matches those digits. -/
theorem hits_digits {name : String} (d l : BitVec 4)
    (h : OpcodeRow.hits ⟨name, d ++ 0#4 ++ 0#4 ++ l, 0xF00F#16⟩ op = true) : fieldD1 op = d ∧ fieldD4 op = l :=
  (and_F00F_eq_iff op d l).1 (beq_iff_eq.1 h)

/-- The word of every instruction matches the instruction's row. -/
theorem encode_hits_row (i : Instr) : Laws.WordMatchesRow.Statement i := by
  cases i with
  | nop => exact Laws.WordMatchesRow.nop
  | cls => exact Laws.WordMatchesRow.cls
  | ret => exact Laws.WordMatchesRow.ret
  | jp nnn => exact Laws.WordMatchesRow.jp nnn
  | call nnn => exact Laws.WordMatchesRow.call nnn
  | seImm x kk => exact Laws.WordMatchesRow.seImm x kk
  | sneImm x kk => exact Laws.WordMatchesRow.sneImm x kk
  | seReg x y => exact Laws.WordMatchesRow.seReg x y
  | ldImm x kk => exact Laws.WordMatchesRow.ldImm x kk
  | addImm x kk => exact Laws.WordMatchesRow.addImm x kk
  | ldReg x y => exact Laws.WordMatchesRow.ldReg x y
  | orReg x y => exact Laws.WordMatchesRow.orReg x y
  | andReg x y => exact Laws.WordMatchesRow.andReg x y
  | xorReg x y => exact Laws.WordMatchesRow.xorReg x y
  | addReg x y => exact Laws.WordMatchesRow.addReg x y

/-- A word that decodes matches the row of what it decodes to. -/
theorem row_of_decode (h : decode op = .ok i) : ∃ r ∈ opcodeTable, r.mnemonic = i.mnemonic ∧ r.hits op = true :=
  encode_of_decode h ▸ encode_hits_row i

/-- A word that matches a row decodes to an instruction of the row's mnemonic. -/
theorem decode_of_hits (hr : r ∈ opcodeTable) (h : r.hits op = true) :
    ∃ i, decode op = .ok i ∧ i.mnemonic = r.mnemonic := by
  simp only [opcodeTable, List.cons_append, List.nil_append, List.mem_cons, List.not_mem_nil, or_false] at hr
  rcases hr with rfl | rfl | rfl | rfl | rfl | rfl | rfl | rfl | rfl | rfl | rfl | rfl | rfl | rfl | rfl
  · exact ⟨.nop, by rw [hits_word h]; decide, rfl⟩
  · exact ⟨.cls, by rw [hits_word h]; decide, rfl⟩
  · exact ⟨.ret, by rw [hits_word h]; decide, rfl⟩
  · exact ⟨.jp (fieldNnn op), by simp [Machine.decode_of_digit, hits_digit 1#4 h], rfl⟩
  · exact ⟨.call (fieldNnn op), by simp [Machine.decode_of_digit, hits_digit 2#4 h], rfl⟩
  · exact ⟨.seImm (fieldD2 op) (fieldKk op), by simp [Machine.decode_of_digit, hits_digit 3#4 h], rfl⟩
  · exact ⟨.sneImm (fieldD2 op) (fieldKk op), by simp [Machine.decode_of_digit, hits_digit 4#4 h], rfl⟩
  · exact ⟨.seReg (fieldD2 op) (fieldD3 op), by simp [Machine.decode_of_digit, hits_digits 5#4 0#4 h], rfl⟩
  · exact ⟨.ldImm (fieldD2 op) (fieldKk op), by simp [Machine.decode_of_digit, hits_digit 6#4 h], rfl⟩
  · exact ⟨.addImm (fieldD2 op) (fieldKk op), by simp [Machine.decode_of_digit, hits_digit 7#4 h], rfl⟩
  · exact ⟨.ldReg (fieldD2 op) (fieldD3 op), by simp [Machine.decode_of_digit, hits_digits 8#4 0#4 h], rfl⟩
  · exact ⟨.orReg (fieldD2 op) (fieldD3 op), by simp [Machine.decode_of_digit, hits_digits 8#4 1#4 h], rfl⟩
  · exact ⟨.andReg (fieldD2 op) (fieldD3 op), by simp [Machine.decode_of_digit, hits_digits 8#4 2#4 h], rfl⟩
  · exact ⟨.xorReg (fieldD2 op) (fieldD3 op), by simp [Machine.decode_of_digit, hits_digits 8#4 3#4 h], rfl⟩
  · exact ⟨.addReg (fieldD2 op) (fieldD3 op), by simp [Machine.decode_of_digit, hits_digits 8#4 4#4 h], rfl⟩

/-- A mnemonic names one row. -/
theorem row_eq_of_mnemonic_eq {q : OpcodeRow} (hr : r ∈ opcodeTable) (hq : q ∈ opcodeTable)
    (h : r.mnemonic = q.mnemonic) : r = q :=
  List.inj_on_of_nodup_map (f := OpcodeRow.mnemonic) (by decide) hr hq h

/-- The patterns of two rows that match one word agree under both masks. -/
theorem pattern_and_mask_of_hits {q : OpcodeRow} (hr : r.hits op = true) (hq : q.hits op = true) :
    r.pattern &&& q.mask = q.pattern &&& r.mask := by
  rw [← beq_iff_eq.1 hr, ← beq_iff_eq.1 hq, BitVec.and_assoc, BitVec.and_comm r.mask, BitVec.and_assoc]

/-- Any two rows differ in a bit that both masks keep, so no word matches two (R85, R86). -/
theorem rows_disjoint (op : Word) : opcodeTable.Pairwise fun r q => ¬ (r.hits op = true ∧ q.hits op = true) := by
  have differ : opcodeTable.Pairwise fun r q => r.pattern &&& q.mask ≠ q.pattern &&& r.mask := by decide
  exact differ.imp fun hne ⟨hr, hq⟩ => hne (pattern_and_mask_of_hits hr hq)

/-- A word is rejected exactly when it matches no row (R88). -/
theorem decode_unimplemented_iff (op : Word) :
    (∀ r ∈ opcodeTable, r.hits op = false) ↔ decode op = .error (.unimplemented op) := by
  constructor
  · intro miss
    cases e : decode op with
    | ok i =>
      obtain ⟨r, hr, -, hit⟩ := row_of_decode e
      exact absurd hit (Bool.eq_false_iff.1 (miss r hr))
    | error reject => rw [Machine.decode_error e]
  · intro e r hr
    refine Bool.eq_false_iff.2 fun hit => ?_
    obtain ⟨i, hi, -⟩ := decode_of_hits hr hit
    cases e.symm.trans hi

/-- Settles O4: a decoded word matches its instruction's row, which its mnemonic determines; a matched word decodes
under the row's mnemonic. -/
theorem decodeMatchesOpcodeTable : Obligations.DecodeMatchesOpcodeTable := by
  refine ⟨fun op r hr => ⟨decode_of_hits hr, ?_⟩, fun i => ?_, rows_disjoint, decode_unimplemented_iff⟩
  · rintro ⟨i, hi, name⟩
    obtain ⟨q, hq, hn, hit⟩ := row_of_decode hi
    rwa [row_eq_of_mnemonic_eq hr hq (name.symm.trans hn.symm)]
  · obtain ⟨r, hr, name, -⟩ := encode_hits_row i
    exact ⟨r, hr, name⟩

end Sys2Proof
end

section
/-! PROOFS. The family 40_system_display.md: `NOP` (R100) and `CLS` (R101). -/

namespace Sys2Proof.Machine

/-- `NOP` completes with the state it was entered with (R100). -/
theorem exec_nop (s : State) : exec .nop s = .next s := rfl

/-- `CLS` completes with the cleared display and no other update (R101). -/
theorem exec_cls (s : State) :
    exec .cls s = .next (s.setDisp (clearDisplay Config.hw.displayW Config.hw.displayH)) := rfl

/-- On a cleared display every pixel of the grid is false, whatever the display was (R101). -/
theorem setDisp_clearDisplay_pixel (s : State) {c r : Nat} (hc : c < Config.hw.displayW)
    (hr : r < Config.hw.displayH) :
    (s.setDisp (clearDisplay Config.hw.displayW Config.hw.displayH)).pixel c r = some false :=
  clearDisplay_pixel hc hr

/-- Settles O24: `NOP` answers the state itself. -/
theorem nopChangesNothing : Obligations.NopChangesNothing :=
  ⟨by decide, fun s => ⟨s, exec_nop s, .refl s []⟩⟩

/-- Settles O25: the display is replaced by the cleared one, and only the display. -/
theorem clsClearsEveryPixel : Obligations.ClsClearsEveryPixel :=
  ⟨by decide, fun s => ⟨_, exec_cls s, fun _ _ => setDisp_clearDisplay_pixel s, onlyChanges_setDisp s _⟩⟩

end Sys2Proof.Machine
end

section
/-! PROOFS. The family 41_control_flow.md: `JP`, `CALL` and `RET` (R112 to R114), a call followed by a return
(R115), and the boundaries of the call stack (R116). -/

namespace Sys2Proof.Machine

/-! ### The words of `JP` and `CALL` (R83) -/

/-- A digit and an address, added up as the tables write them, make the word of format A. -/
theorem ofNat_digit_nnn (d : BitVec 4) (nnn : Addr12) :
    BitVec.ofNat 16 (d.toNat * 4096 + nnn.toNat) = (d ++ nnn : Word) := by
  rw [← toNat_digit_nnn]; exact BitVec.ofNat_toNat 16 _

theorem decode_jp (nnn : Addr12) : decode (BitVec.ofNat 16 (0x1000 + nnn.toNat)) = .ok (.jp nnn) := by
  have word : BitVec.ofNat 16 (0x1000 + nnn.toNat) = (1#4 ++ nnn : Word) := ofNat_digit_nnn 1#4 nnn
  simp [word, decode_of_digit]

theorem decode_call (nnn : Addr12) : decode (BitVec.ofNat 16 (0x2000 + nnn.toNat)) = .ok (.call nnn) := by
  have word : BitVec.ofNat 16 (0x2000 + nnn.toNat) = (2#4 ++ nnn : Word) := ofNat_digit_nnn 2#4 nnn
  simp [word, decode_of_digit]

/-! ### The states that `JP`, `CALL` and `RET` leave (R112 to R114) -/

/-- `JP` completes with the target in `pc` and no other update (R113). -/
theorem exec_jp (nnn : Addr12) (s : State) : exec (.jp nnn) s = .next (s.setPc (target nnn)) := rfl

/-- What a frame allows to change and is found unchanged can be struck from the frame. -/
theorem OnlyChanges.strike {e : Element} {es : List Element} {s t : State} (h : OnlyChanges (e :: es) s t)
    (he : Unchanged s t e) : OnlyChanges es s t := fun f hf => by
  by_cases hfe : f = e
  · exact hfe ▸ he
  · exact h f (by simp [hfe, hf])

/-- A push and a jump write `pc` and the stack (R114). -/
theorem onlyChanges_push_jump (s : State) (k : Vector Addr Config.hw.stackCapacity) (n : Nat) (a : Addr) :
    OnlyChanges [.pc, .stack, .sp] s ((s.setStack k n).setPc a) :=
  (onlyChanges_setStack_setPc s k n a).mono (by decide) |>.strike (e := .fault) rfl

/-- A pop and a jump write `pc` and the stack pointer, and keep every slot (R112). -/
theorem onlyChanges_pop_jump (s : State) (n : Nat) (a : Addr) :
    OnlyChanges [.pc, .sp] s ((s.setStack s.stack n).setPc a) :=
  (onlyChanges_push_jump s s.stack n a).mono (by decide) |>.strike (e := .stack) fun _ => rfl

/-- A fault raised in the execute half latches its cause and changes nothing else (R214). -/
theorem raiseInExecute_latches (cause : Fault) (i : Instr) (s : State) :
    (∃ r, (raiseInExecute cause i s).fault = some r ∧ r.cause = cause) ∧
      OnlyChanges [.fault] s (raiseInExecute cause i s) :=
  ⟨⟨_, rfl, rfl⟩, onlyChanges_setFault s _⟩

/-- Settles O26: `JP` is one write of `pc`. -/
theorem jpSetsPc : Obligations.JpSetsPc := fun nnn s =>
  ⟨decode_jp nnn, _, exec_jp nnn s, target_toNat nnn, onlyChanges_setPc s _⟩

/-- Settles O27: `CALL` is a push and a jump where the stack has a free slot, else a raise. -/
theorem callPushesAndJumps : Obligations.CallPushesAndJumps := by
  intro nnn s
  refine ⟨decode_call nnn, fun h => ⟨_, execCall_of_lt nnn s h, target_toNat nnn, rfl, ?_, fun j hj => ?_,
    onlyChanges_push_jump s _ _ _⟩, fun h => ⟨_, execCall_of_le nnn s h.ge, raiseInExecute_latches _ _ s⟩⟩
  · rw [setPc_slot, slot_push, if_pos rfl]
  · rw [setPc_slot, slot_push, if_neg hj]

/-- Settles O28: `RET` is a pop and a jump where the stack has a live slot, else a raise. -/
theorem retPopsAndReturns : Obligations.RetPopsAndReturns :=
  ⟨by decide, fun s _ => ⟨fun h => ⟨_, execRet_of_pos s h, rfl, rfl, onlyChanges_pop_jump s _ _⟩,
    fun h => ⟨_, execRet_of_zero s h, raiseInExecute_latches _ _ s⟩⟩⟩

/-! ### A call followed by a return (R115) -/

/-- The state after the cycle of a `CALL` that can push: the address of the next instruction on the stack, and `pc`
at the target. -/
def State.called (s : State) (nnn : Addr12) (h : s.sp < Config.hw.stackCapacity) : State :=
  (s.setStack (s.stack.set s.sp (s.pc + 2#16) h) (s.sp + 1)).setPc (target nnn)

section
variable {s : State} {nnn : Addr12} (h : s.sp < Config.hw.stackCapacity)

theorem called_slot (j : Nat) : (s.called nnn h).slot j = if j = s.sp then s.pc + 2#16 else s.slot j :=
  slot_push s h _ (s.sp + 1) j

theorem step_call (hr : s.Runs (.call nnn)) : step s = .next (s.called nnn h) :=
  (step_runs hr).trans (execCall_of_lt nnn s.advance h)

/-- A called routine whose first word is `RET`, at an address that can be fetched from, runs it next. -/
theorem called_runs_ret (hf : s.fault = none) (hn : nnn.toNat + 2 ≤ Config.hw.memSize)
    (hw : s.wordAt nnn.toNat = 0x00EE#16) : (s.called nnn h).Runs .ret := by
  have pc : (s.called nnn h).pc.toNat = nnn.toNat := target_toNat nnn
  refine ⟨⟨hf, pc ▸ hn⟩, ?_⟩
  have word : (s.called nnn h).wordAt nnn.toNat = 0x00EE#16 := hw
  rw [pc, word]; decide

/-- The cycle of a `RET` right after the call pops what the call pushed. -/
theorem step_ret_of_called (hr : (s.called nnn h).Runs .ret) : step (s.called nnn h) =
    .next (((s.called nnn h).setStack (s.called nnn h).stack s.sp).setPc (s.pc + 2#16)) := by
  have top : (s.called nnn h).slot s.sp = s.pc + 2#16 := (called_slot h s.sp).trans (if_pos rfl)
  rw [← top, step_runs hr]
  exact execRet_of_pos (s.called nnn h).advance s.sp.succ_pos

end

/-- Settles O40: the return pops the address the call pushed, and both leave the slots below it alone. -/
theorem callThenReturnRoundTrip : Obligations.CallThenReturnRoundTrip := by
  intro s nnn hr hs hn hw
  have ⟨⟨hf, _⟩, _⟩ := hr
  have ret := step_ret_of_called hs (called_runs_ret hs hf hn hw)
  refine ⟨_, (run_succ_of_next (step_call hs hr) 1).trans (run_succ_of_next ret 0), rfl, rfl, fun j hj => ?_, hf,
    ?_⟩
  · exact (called_slot (nnn := nnn) hs j).trans (if_neg hj.ne)
  · have call_frame : OnlyChanges [.pc, .stack, .sp] s (s.called nnn hs) := onlyChanges_push_jump s _ _ _
    have frame := call_frame.trans (onlyChanges_push_jump _ (s.called nnn hs).stack s.sp (s.pc + 2#16))
    exact (frame.mono (by decide)).strike (e := .sp) rfl

/-! ### The boundaries of the call stack (R116), for any capacity

The stack with `sp = us.length` holds the addresses `us`, the oldest first: `us <+: k.toList`. -/

section
variable {S : Nat} {k : Vector Addr S}

/-- A push onto a stack that holds `us` makes it hold `us` and the pushed value. -/
theorem push_holds {us : List Addr} (h : us <+: k.toList) (v : Addr) (hu : us.length < S) :
    us ++ [v] <+: (k.set us.length v hu).toList := by
  obtain ⟨rest, e⟩ := h
  cases rest with
  | nil =>
    have full : us.length = S := by simpa using congrArg List.length e
    omega
  | cons w rest => exact ⟨rest, by simp [Vector.toList_set, ← e]⟩

/-- Pushes that fit all succeed, and the stack holds their values above what it held. -/
theorem pushAll_of_fits : ∀ (vs : List Addr) {us : List Addr} {k : Vector Addr S}, us <+: k.toList →
    us.length + vs.length ≤ S →
    ∃ k', pushAll vs (k, us.length) = ((k', us.length + vs.length), 0) ∧ us ++ vs <+: k'.toList
  | [], us, k, h, _ => ⟨k, rfl, by simpa using h⟩
  | v :: vs, us, k, h, hf => by
    rw [List.length_cons] at hf
    have hu : us.length < S := by omega
    obtain ⟨k', pushed, holds⟩ := pushAll_of_fits vs (push_holds h v hu) (by simp; omega)
    refine ⟨k', ?_, by simpa using holds⟩
    simp only [pushAll, pushSlot_of_lt k v hu]
    simpa [Nat.add_assoc, Nat.add_comm 1] using pushed

/-- Pushes onto a full stack all overflow and leave it as it was. -/
theorem pushAll_of_full : ∀ (vs : List Addr), pushAll vs (k, S) = ((k, S), vs.length)
  | [] => rfl
  | v :: vs => by simp [pushAll, pushSlot_of_le k v le_rfl, pushAll_of_full vs]

/-- Two sequences of pushes, one after the other, with their overflows added up. -/
theorem pushAll_append (ws : List Addr) : ∀ (vs : List Addr) (p : Vector Addr S × Nat), pushAll (vs ++ ws) p =
    ((pushAll ws (pushAll vs p).1).1, (pushAll vs p).2 + (pushAll ws (pushAll vs p).1).2)
  | [], p => by simp [pushAll]
  | v :: vs, p => by
    rw [List.cons_append, pushAll, pushAll]
    cases pushSlot p.1 p.2 v with
    | ok p' => exact pushAll_append ws vs p'
    | error r => simp [pushAll_append ws vs p, Nat.add_right_comm]

/-- Pops of an empty stack all underflow and leave `sp` at 0. -/
theorem popAll_of_empty : ∀ (n : Nat), popAll k n 0 = ([], 0, n)
  | 0 => rfl
  | n + 1 => by simp [popAll, popSlot_zero, popAll_of_empty n]

/-- A pop of a stack that holds `us` and `v` above it returns `v`. -/
theorem popSlot_of_holds {us : List Addr} {v : Addr} (h : us ++ [v] <+: k.toList) :
    popSlot k (us.length + 1) = .ok (v, us.length) := by
  have top : k[us.length]? = some v := by
    obtain ⟨rest, e⟩ := h
    simp [← Vector.getElem?_toList, ← e]
  rw [popSlot_of_pos k (us.length.succ_pos), Nat.succ_sub_one, top]; rfl

/-- Popping a stack that holds `us` returns `us` in reverse, and every pop beyond that underflows. -/
theorem popAll_of_holds (us : List Addr) (h : us <+: k.toList) (n : Nat) :
    popAll k (us.length + n) us.length = (us.reverse, 0, n) := by
  induction us using List.reverseRecOn with
  | nil => simpa using popAll_of_empty n
  | append_singleton us v ih =>
    have below := ih (.trans ⟨[v], rfl⟩ h)
    rw [List.length_append, List.length_singleton, Nat.add_right_comm, popAll, popSlot_of_holds h]
    simp [below]

end

/-- Settles O41: the pushes fill the stack with `vs`, the pops empty it, and one more of either faults. -/
theorem stackBoundaryLaw : Obligations.StackBoundaryLaw := by
  rintro S k vs last rfl
  obtain ⟨k', pushed, holds⟩ := pushAll_of_fits vs (us := []) ⟨k.toList, rfl⟩ (by simp)
  simp only [List.length_nil, Nat.zero_add, List.nil_append] at pushed holds
  refine ⟨k', pushed, pushSlot_of_le k' last le_rfl, ?_, popAll_of_holds vs holds 0, popSlot_zero k',
    popAll_of_holds vs holds 1⟩
  rw [pushAll_append, pushed, pushAll_of_full]; rfl

end Sys2Proof.Machine
end

section
/-! PROOFS. The family 42_skip.md: the three skips, as instructions (R130 to R132) and as cycles (R133). -/

namespace Sys2Proof.Machine

/-! ### The words of the skips (R83) -/

/-- A digit, a register number and an immediate, added up as the tables write them, make the word of format I. -/
theorem ofNat_digits_kk (d x : BitVec 4) (kk : Byte) :
    BitVec.ofNat 16 (d.toNat * 4096 + x.toNat * 256 + kk.toNat) = (d ++ x ++ kk : Word) := by
  rw [← toNat_digits_kk]; exact BitVec.ofNat_toNat 16 _

/-- The two fixed digits and two register numbers, added up as the tables write them, make the word of format R. -/
theorem ofNat_digits (d x y l : BitVec 4) :
    BitVec.ofNat 16 (d.toNat * 4096 + l.toNat + x.toNat * 256 + y.toNat * 16) = (d ++ x ++ y ++ l : Word) := by
  have number := toNat_digits d x y l
  apply BitVec.eq_of_toNat_eq; rw [BitVec.toNat_ofNat]; omega

theorem decode_seImm (x : RegNum) (kk : Byte) :
    decode (BitVec.ofNat 16 (0x3000 + x.toNat * 256 + kk.toNat)) = .ok (.seImm x kk) := by
  have word : BitVec.ofNat 16 (0x3000 + x.toNat * 256 + kk.toNat) = (3#4 ++ x ++ kk : Word) :=
    ofNat_digits_kk 3#4 x kk
  simp [word, decode_of_digit]

theorem decode_sneImm (x : RegNum) (kk : Byte) :
    decode (BitVec.ofNat 16 (0x4000 + x.toNat * 256 + kk.toNat)) = .ok (.sneImm x kk) := by
  have word : BitVec.ofNat 16 (0x4000 + x.toNat * 256 + kk.toNat) = (4#4 ++ x ++ kk : Word) :=
    ofNat_digits_kk 4#4 x kk
  simp [word, decode_of_digit]

theorem decode_seReg (x y : RegNum) :
    decode (BitVec.ofNat 16 (0x5000 + x.toNat * 256 + y.toNat * 16)) = .ok (.seReg x y) := by
  have word : BitVec.ofNat 16 (0x5000 + x.toNat * 256 + y.toNat * 16) = (5#4 ++ x ++ y ++ 0#4 : Word) :=
    ofNat_digits 5#4 x y 0#4
  simp [word, decode_of_digit]

/-! ### Each skip is one conditional advance -/

theorem exec_seImm (x : RegNum) (kk : Byte) (s : State) :
    exec (.seImm x kk) s = .next (skipIf (s.reg x = kk) s) := rfl

theorem exec_sneImm (x : RegNum) (kk : Byte) (s : State) :
    exec (.sneImm x kk) s = .next (skipIf (s.reg x ≠ kk) s) := by
  rw [decide_not]; rfl

theorem exec_seReg (x y : RegNum) (s : State) :
    exec (.seReg x y) s = .next (skipIf (s.reg x = s.reg y) s) := rfl

section
variable {i : Instr} {s : State} {p : Prop} [Decidable p]

/-- An instruction that is a conditional advance adds 2 to `pc`, modulo 65536, or leaves it, and writes nothing
else (R130 to R132). -/
theorem exec_skip (h : exec i s = .next (skipIf p s)) : ∃ t, exec i s = .next t ∧ OnlyChanges [.pc] s t ∧
    t.pc.toNat = if p then (s.pc.toNat + 2) % 65536 else s.pc.toNat := by
  refine ⟨_, h, onlyChanges_skipIf _ s, ?_⟩
  by_cases hp : p <;> simp [skipIf_pc, hp]

/-- The cycle of a conditional advance adds the 2 of the fetch and the 2 of a taken skip; neither addition wraps,
because the fetch was in range (R27, R133). -/
theorem step_skip (hr : s.Runs i) (h : exec i s.advance = .next (skipIf p s.advance)) :
    ∃ t, step s = .next t ∧ OnlyChanges [.pc] s t ∧ t.pc.toNat = s.pc.toNat + if p then 4 else 2 := by
  have ⟨⟨_, inRange⟩, _⟩ := hr
  have fetched : s.advance.pc.toNat = s.pc.toNat + 2 := add_two_toNat inRange
  have small : s.pc.toNat + 1 < 4096 := inRange
  refine ⟨_, (step_runs hr).trans h, (onlyChanges_advance s).trans (onlyChanges_skipIf _ _), ?_⟩
  rw [skipIf_pc_toNat _ (by omega), fetched]
  by_cases hp : p <;> simp [hp]

end

/-- Settles O29: each skip decodes from its word, and is a conditional advance on its own condition. -/
theorem skipsTestTheirOperands : Obligations.SkipsTestTheirOperands := by
  intro x y kk s
  refine ⟨decode_seImm x kk, decode_sneImm x kk, decode_seReg x y, exec_skip (exec_seImm x kk s), ?_,
    exec_skip (exec_seReg x y s)⟩
  simpa only [ne_eq, ite_not] using exec_skip (exec_sneImm x kk s)

/-- Settles O30: each skip's cycle is the fetch's advance, then the conditional one. -/
theorem skipsAdvanceByFourOrTwo : Obligations.SkipsAdvanceByFourOrTwo := by
  intro s x y kk
  refine ⟨fun hr => step_skip hr (exec_seImm x kk _), fun hr => ?_, fun hr => step_skip hr (exec_seReg x y _)⟩
  have skips : exec (.sneImm x kk) s.advance = .next (skipIf (s.reg x ≠ kk) s.advance) := exec_sneImm x kk _
  simpa only [ne_eq, ite_not] using step_skip hr skips

end Sys2Proof.Machine
end

section
/-! PROOFS. The family 43_immediate.md: `LD Vx,kk` (R140) and `ADD Vx,kk` (R141). -/

namespace Sys2Proof.Machine

/-! ### The words of the two instructions (R83) -/

theorem decode_ldImm (x : RegNum) (kk : Byte) :
    decode (BitVec.ofNat 16 (0x6000 + x.toNat * 256 + kk.toNat)) = .ok (.ldImm x kk) := by
  have word : BitVec.ofNat 16 (0x6000 + x.toNat * 256 + kk.toNat) = (6#4 ++ x ++ kk : Word) :=
    ofNat_digits_kk 6#4 x kk
  simp [word, decode_of_digit]

theorem decode_addImm (x : RegNum) (kk : Byte) :
    decode (BitVec.ofNat 16 (0x7000 + x.toNat * 256 + kk.toNat)) = .ok (.addImm x kk) := by
  have word : BitVec.ofNat 16 (0x7000 + x.toNat * 256 + kk.toNat) = (7#4 ++ x ++ kk : Word) :=
    ofNat_digits_kk 7#4 x kk
  simp [word, decode_of_digit]

/-! ### Each instruction is one write of a register -/

theorem exec_ldImm (x : RegNum) (kk : Byte) (s : State) : exec (.ldImm x kk) s = .next (s.setReg x kk) := rfl

theorem exec_addImm (x : RegNum) (kk : Byte) (s : State) :
    exec (.addImm x kk) s = .next (s.setReg x (wrappedSum (s.reg x) kk)) := rfl

/-- The wrapped sum as a number (R158). -/
theorem wrappedSum_toNat (a b : Byte) : (wrappedSum a b).toNat = (a.toNat + b.toNat) % 256 :=
  (BitVec.toNat_ofNat _ 8).trans (Nat.mod_mod _ 256)

/-- An instruction that is one write of a register leaves the written byte there, and every other register, the
flag register like any, and every other element as it was. -/
theorem exec_write {i : Instr} {x : RegNum} {b : Byte} {s : State} (h : exec i s = .next (s.setReg x b)) :
    ∃ t, exec i s = .next t ∧ t.reg x = b ∧ OnlyRegsChange [x] s t ∧ OnlyChanges [.v] s t :=
  ⟨_, h, setReg_reg_self s x b, onlyRegsChange_setReg s x b, onlyChanges_setReg s x b⟩

/-- Settles O31: the word decodes, and the load is one write of the immediate. -/
theorem loadImmediate : Obligations.LoadImmediate := fun x kk s =>
  ⟨decode_ldImm x kk, exec_write (exec_ldImm x kk s)⟩

/-- Settles O32: the word decodes, and the addition is one write of the wrapped sum. -/
theorem addImmediateWraps : Obligations.AddImmediateWraps := by
  intro x kk s
  obtain ⟨t, runs, sum, frame⟩ := exec_write (exec_addImm x kk s)
  exact ⟨decode_addImm x kk, t, runs, sum ▸ wrappedSum_toNat (s.reg x) kk, frame⟩

end Sys2Proof.Machine
end

section
/-! PROOFS. The family 44_alu.md: the move and the logical operations (R151 to R154, R157), and `ADD Vx,Vy` with its
carry (R155, R156). -/

namespace Sys2Proof.Machine

/-- In family 8 the last digit selects the operation (R150). -/
theorem decode_family8 (x y l : BitVec 4) :
    decode (BitVec.ofNat 16 (0x8000 + l.toNat + x.toNat * 256 + y.toNat * 16)) =
      if l = 0#4 then .ok (.ldReg x y)
      else if l = 1#4 then .ok (.orReg x y)
      else if l = 2#4 then .ok (.andReg x y)
      else if l = 3#4 then .ok (.xorReg x y)
      else if l = 4#4 then .ok (.addReg x y)
      else .error (.unimplemented (8#4 ++ x ++ y ++ l)) := by
  have word : BitVec.ofNat 16 (0x8000 + l.toNat + x.toNat * 256 + y.toNat * 16) = (8#4 ++ x ++ y ++ l : Word) :=
    ofNat_digits 8#4 x y l
  simp [word, decode_of_digit]

/-! ### The move and the logical operations are one write of a register -/

theorem exec_ldReg (x y : RegNum) (s : State) : exec (.ldReg x y) s = .next (s.setReg x (s.reg y)) := rfl

theorem exec_orReg (x y : RegNum) (s : State) : exec (.orReg x y) s = .next (s.setReg x (s.reg x ||| s.reg y)) := rfl

theorem exec_andReg (x y : RegNum) (s : State) :
    exec (.andReg x y) s = .next (s.setReg x (s.reg x &&& s.reg y)) := rfl

theorem exec_xorReg (x y : RegNum) (s : State) :
    exec (.xorReg x y) s = .next (s.setReg x (s.reg x ^^^ s.reg y)) := rfl

/-- An instruction that is one write of a register leaves there, bit by bit, the byte it wrote. -/
theorem exec_write_bits {i : Instr} {x : RegNum} {b : Byte} {s : State} {bit : Nat → Bool}
    (h : exec i s = .next (s.setReg x b)) (hb : ∀ k, b.getLsbD k = bit k) :
    ∃ t, exec i s = .next t ∧ (∀ k, k < 8 → (t.reg x).getLsbD k = bit k) ∧
      OnlyRegsChange [x] s t ∧ OnlyChanges [.v] s t := by
  obtain ⟨t, runs, written, frame⟩ := exec_write h
  exact ⟨t, runs, fun k _ => written ▸ hb k, frame⟩

/-- Settles O33: each word decodes by its last digit, and each instruction is one write, whose bits the bitwise
operations give one by one. -/
theorem moveAndLogicWriteOneRegister : Obligations.MoveAndLogicWriteOneRegister := fun x y s =>
  ⟨decode_family8 x y 0#4, decode_family8 x y 1#4, decode_family8 x y 2#4, decode_family8 x y 3#4,
    exec_write (exec_ldReg x y s),
    exec_write_bits (exec_orReg x y s) fun _ => BitVec.getLsbD_or,
    exec_write_bits (exec_andReg x y s) fun _ => BitVec.getLsbD_and,
    exec_write_bits (exec_xorReg x y s) fun _ => BitVec.getLsbD_xor⟩

/-! ### `ADD Vx,Vy` is two writes: the sum, then the carry -/

theorem exec_addReg (x y : RegNum) (s : State) : exec (.addReg x y) s =
    .next ((s.setReg x (wrappedSum (s.reg x) (s.reg y))).setReg flagReg (flagByte (carryOut (s.reg x) (s.reg y)))) :=
  rfl

/-- The carry as a byte: 1 where the sum does not fit in 8 bits, else 0 (R155). -/
theorem flagByte_carryOut (a b : Byte) :
    flagByte (carryOut a b) = if 256 ≤ a.toNat + b.toNat then 1#8 else 0#8 := by
  simp only [flagByte, carryOut, decide_eq_true_eq]

/-- Settles O34: the second write leaves the carry in `VF`, and leaves the sum in `V[x]` where that is not `VF`
(R156). -/
theorem addReportsCarry : Obligations.AddReportsCarry := by
  intro x y s
  have runs := exec_addReg x y s
  refine ⟨decode_family8 x y 4#4, _, runs, fun hx => ?_, ?_, exec_onlyRegsChange runs, ?_⟩
  · rw [setReg_reg_of_ne _ _ hx, setReg_reg_self, wrappedSum_toNat]
  · rw [setReg_reg_self, flagByte_carryOut]
  · exact (onlyChanges_setReg s x _).trans (onlyChanges_setReg _ flagReg _)

end Sys2Proof.Machine
end

section
/-! PROOFS. The family 50_cycle_and_host.md: a halted core (R181), loading an image (R186), the ticks of the timers
(R187, R188), writing the keys and reading the display (R189, R190). -/

namespace Sys2Proof.Machine

/-! ### A halted core (R181) -/

/-- A cycle of a halted core answers with the latched record and leaves the machine as it is. -/
theorem perform_cycle_of_latched {y : System} {r : FaultRecord} (h : y.machine.fault = some r) :
    perform .cycle y = .next (⟨y.machine, .running⟩, .fault r) := by
  have hs : step y.machine = .next y.machine := step_of_halted (by simp [h])
  simp only [perform, performCycle, hs, cycleResponse, h]

/-- An operation that neither runs a cycle nor loads an image has a move in every system. -/
theorem perform_host_accepts {o : Operation} (y : System) (hc : o ≠ .cycle) (hl : ∀ bytes, o ≠ .loadImage bytes) :
    ∃ z, perform o y = .next z := by
  cases o with
  | cycle => exact absurd rfl hc
  | loadImage bytes => exact absurd rfl (hl bytes)
  | reset | keyWrite | tickDelay | tickSound | displayRead => exact ⟨_, rfl⟩

/-- Settles O14: the cycle answers from the latch, and no other operation looks at it. -/
theorem haltedCoreStaysHalted : Obligations.HaltedCoreStaysHalted := fun y r hf =>
  ⟨step_of_halted (by simp [hf]), ⟨_, perform_cycle_of_latched hf, rfl⟩, fun _ => perform_host_accepts y⟩

/-! ### Loading an image (R186) -/

section
variable {y : System} {bytes : List Byte}

/-- Once an image has been taken or a cycle has been run, `LoadImage` has no move. -/
theorem perform_loadImage_of_not_built (hp : y.phase ≠ .built) :
    perform (.loadImage bytes) y = .refused .imageOutOfContract := by
  obtain ⟨machine, phase⟩ := y
  cases phase with
  | built => exact absurd rfl hp
  | loaded | running => rfl

/-- After reset an image that fits is written from the program origin up. -/
theorem perform_loadImage_of_fits (hp : y.phase = .built)
    (h : Config.hw.programOrigin + bytes.length ≤ Config.hw.memSize) : perform (.loadImage bytes) y =
      .next (⟨y.machine.setMem (Memory.setBytes Config.hw y.machine.mem Config.hw.programOrigin bytes), .loaded⟩,
        .ok) := by
  simp only [perform, performLoad, hp, (loadImage_state_iff bytes y.machine _).2 ⟨h, rfl⟩]

/-- After reset an image that does not fit is refused, and the system stays as it is. -/
theorem perform_loadImage_of_not_fits (hp : y.phase = .built)
    (h : Config.hw.memSize < Config.hw.programOrigin + bytes.length) :
    perform (.loadImage bytes) y = .next (y, .imageRefused) := by
  simp only [perform, performLoad, hp, (loadImage_state_none_iff bytes y.machine).2 h]

end

/-- Settles O45: the memory an image leaves is read inside and outside the bytes written. -/
theorem loadImageCopiesOrRefuses : Obligations.LoadImageCopiesOrRefuses := fun y _ hm =>
  ⟨fun hp => perform_loadImage_of_not_built (by simp [hp]),
    fun hp h => ⟨_, perform_loadImage_of_fits hp h, fun _ => get_setBytes_inside hm h,
      fun _ => get_setBytes_outside hm h, onlyChanges_setMem y.machine _⟩,
    fun hp h => ⟨y, perform_loadImage_of_not_fits hp h, rfl⟩⟩

/-! ### Ticking the timers (R187, R188) -/

/-- A frame that each application of `f` keeps is kept by any number of them. -/
theorem OnlyChanges.iterate {es : List Element} {f : State → State} (h : ∀ s, OnlyChanges es s (f s)) (s : State) :
    ∀ n, OnlyChanges es s (f^[n] s)
  | 0 => .refl s es
  | n + 1 => by
    rw [Function.iterate_succ_apply']
    exact (OnlyChanges.iterate h s n).trans (h _)

/-- Where each tick counts `timer` down once, n ticks subtract n, saturating at 0. -/
theorem timer_iterate_toNat {tick : State → State} {timer : State → Byte}
    (h : ∀ s, timer (tick s) = countDown (timer s)) (s : State) :
    ∀ n, (timer (tick^[n] s)).toNat = (timer s).toNat - n
  | 0 => rfl
  | n + 1 => by
    rw [Function.iterate_succ_apply', h, countDown_toNat, timer_iterate_toNat h s n, Nat.sub_sub]

/-- Settles O48: each tick is one countdown of its timer and writes nothing else, and so, by induction on their
number, are n of them. -/
theorem ticksSaturateAtZero : Obligations.TicksSaturateAtZero := fun s n =>
  ⟨timer_iterate_toNat (timer := State.dt) (fun _ => rfl) s n, .iterate (fun t => onlyChanges_setDt t _) s n,
    timer_iterate_toNat (timer := State.st) (fun _ => rfl) s n, .iterate (fun t => onlyChanges_setSt t _) s n⟩

/-! ### Writing the keys and reading the display (R189, R190) -/

/-- Settles O49: a key write is one update of the key array, and a display read returns the display itself. -/
theorem keyWriteAndDisplayRead : Obligations.KeyWriteAndDisplayRead := fun y keys =>
  ⟨⟨⟨y.machine.keyWrite keys, y.phase⟩, rfl, rfl, onlyChanges_setKey y.machine keys⟩,
    y.machine.displayRead, rfl, fun _ _ => rfl⟩

end Sys2Proof.Machine
end

section
/-! PROOFS. The family 60_exceptions.md: the four faults (R210 to R213) and the state a faulting cycle leaves (R215). -/

namespace Sys2Proof.Machine

variable {s t : State} {c : Fault}

/-! ### Which fault a cycle raises, and what it leaves -/

/-- The cycle that begins in `s` meets the cause: the right sides of R210 to R213.  A stack pointer above the
capacity, which no run reaches, overflows too. -/
def State.Raises (s : State) : Fault → Prop
  | .unimplementedOpcode => s.Fetches ∧ ∀ i, decode (s.wordAt s.pc.toNat) ≠ .ok i
  | .stackOverflow => (∃ nnn, s.Runs (.call nnn)) ∧ Config.hw.stackCapacity ≤ s.sp
  | .stackUnderflow => s.Runs .ret ∧ s.sp = 0
  | .memoryOutOfBounds => Config.hw.memSize ≤ s.pc.toNat + 1

/-- The record of a fault raised by the cycle that begins in `s`: a word is in it where one was fetched (R214). -/
def State.faultRecord (s : State) : Fault → FaultRecord
  | .memoryOutOfBounds => ⟨.memoryOutOfBounds, s.pc, none⟩
  | c => ⟨c, s.pc, some (s.wordAt s.pc.toNat)⟩

/-- What the faulting cycle leaves: the record latched, and `pc` advanced where the fetch succeeded (R215). -/
def State.afterFault (s : State) : Fault → State
  | .memoryOutOfBounds => s.setFault (some (s.faultRecord .memoryOutOfBounds))
  | c => s.advance.setFault (some (s.faultRecord c))

theorem faultRecord_cause (s : State) (c : Fault) : (s.faultRecord c).cause = c := by cases c <;> rfl

theorem faultRecord_fpc (s : State) (c : Fault) : (s.faultRecord c).fpc = s.pc := by cases c <;> rfl

theorem afterFault_fault (s : State) (c : Fault) : (s.afterFault c).fault = some (s.faultRecord c) := by
  cases c <;> rfl

theorem afterFault_sp (s : State) (c : Fault) : (s.afterFault c).sp = s.sp := by cases c <;> rfl

/-- The advance and the latch are all that a fault after the fetch writes (R215). -/
theorem onlyChanges_advance_setFault (s : State) (f : Option FaultRecord) :
    OnlyChanges [.pc, .fault] s (s.advance.setFault f) :=
  ((onlyChanges_advance s).mono (by simp)).trans ((onlyChanges_setFault s.advance f).mono (by simp))

theorem onlyChanges_afterFault (s : State) (c : Fault) : OnlyChanges [.pc, .fault] s (s.afterFault c) := by
  cases c with
  | memoryOutOfBounds => exact (onlyChanges_setFault s _).mono (by simp)
  | unimplementedOpcode | stackOverflow | stackUnderflow => exact onlyChanges_advance_setFault s _

/-- The instruction that the cycle runs encodes to the word it was fetched as. -/
theorem State.Runs.encode_eq {i : Instr} (h : s.Runs i) : encode i = s.wordAt s.pc.toNat := encode_of_decode h.2

/-- A fault raised by the instruction the cycle runs records where it was fetched from, and its word (R211, R212). -/
theorem State.Runs.raiseInExecute_eq {i : Instr} (h : s.Runs i) (cause : Fault) :
    raiseInExecute cause i s.advance =
      s.advance.setFault (some ⟨cause, s.pc, some (s.wordAt s.pc.toNat)⟩) := by
  rw [raiseInExecute_advance, h.encode_eq]

/-- A cycle that meets a cause leaves the state of that fault. -/
theorem State.Raises.step_eq (h : s.Raises c) (hf : s.fault = none) : step s = .next (s.afterFault c) := by
  cases c with
  | unimplementedOpcode => exact step_of_unimplemented h.1 h.2
  | stackOverflow =>
    obtain ⟨⟨nnn, hr⟩, hs⟩ := h
    rw [step_runs hr]
    exact (execCall_of_le nnn s.advance hs).trans (congrArg _ (hr.raiseInExecute_eq _))
  | stackUnderflow =>
    obtain ⟨hr, hs⟩ := h
    rw [step_runs hr]
    exact (execRet_of_zero s.advance hs).trans (congrArg _ (hr.raiseInExecute_eq _))
  | memoryOutOfBounds => exact step_of_out_of_range hf h

/-- A cycle either ends without a fault, or meets a cause and leaves the state of that fault. -/
theorem step_fault_cases (hf : s.fault = none) (h : step s = .next t) :
    t.fault = none ∨ ∃ c, s.Raises c ∧ t = s.afterFault c := by
  rcases step_cases h with ⟨hn, -⟩ | ⟨-, hp, ht⟩ | ⟨hF, hd, ht⟩ | ⟨i, hr, he⟩
  · exact absurd hf hn
  · exact .inr ⟨.memoryOutOfBounds, Nat.not_lt.1 hp, ht⟩
  · exact .inr ⟨.unimplementedOpcode, ⟨hF, by simp [hd]⟩, ht⟩
  · rcases exec_fault he with ⟨hk, -⟩ | ⟨nnn, rfl, hs, ht⟩ | ⟨rfl, hs, ht⟩
    · exact .inl (hk.trans hf)
    · exact .inr ⟨.stackOverflow, ⟨⟨nnn, hr⟩, hs⟩, ht.trans (hr.raiseInExecute_eq _)⟩
    · exact .inr ⟨.stackUnderflow, ⟨hr, hs⟩, ht.trans (hr.raiseInExecute_eq _)⟩

/-- The record a cycle latches tells which cause it met, and with it everything the cycle did. -/
theorem raises_of_step {r : FaultRecord} (hf : s.fault = none) (h : step s = .next t) (hr : t.fault = some r) :
    ∃ c, s.Raises c ∧ t = s.afterFault c ∧ r = s.faultRecord c := by
  rcases step_fault_cases hf h with hn | ⟨c, hc, rfl⟩
  · rw [hn] at hr; cases hr
  · exact ⟨c, hc, rfl, Option.some.inj (hr.symm.trans (afterFault_fault s c))⟩

/-- A cause is latched by a cycle that meets it only: the "exactly" of R210 to R213. -/
theorem raises_of_latched_cause (hf : s.fault = none)
    (h : ∃ t r, step s = .next t ∧ t.fault = some r ∧ r.cause = c) : s.Raises c := by
  obtain ⟨t, r, ht, hr, rfl⟩ := h
  obtain ⟨c, hc, -, rfl⟩ := raises_of_step hf ht hr
  rwa [faultRecord_cause]

/-! ### The four faults (R210 to R213) -/

/-- Settles O17: the fetch is the only place that raises this cause. -/
theorem fetchOutOfRangeLatches : Obligations.FetchOutOfRangeLatches :=
  ⟨rfl, fun s hf _ =>
    ⟨fun hp => ⟨_, State.Raises.step_eq (c := .memoryOutOfBounds) hp hf, rfl, onlyChanges_setFault s _⟩,
      raises_of_latched_cause hf⟩⟩

/-- Settles O18: the decoder's rejection is the only place that raises this cause. -/
theorem unimplementedWordLatches : Obligations.UnimplementedWordLatches :=
  ⟨rfl, fun s hf _ =>
    ⟨fun hF hd => ⟨_, State.Raises.step_eq (c := .unimplementedOpcode) ⟨hF, hd⟩ hf, rfl, rfl,
        onlyChanges_afterFault s _⟩,
      raises_of_latched_cause hf⟩⟩

/-- Settles O19: only `CALL` pushes, and it raises before it jumps. -/
theorem callOnFullStackLatches : Obligations.CallOnFullStackLatches := by
  refine ⟨rfl, fun s hf hsp => ⟨fun nnn hr hs => ?_, fun h => ?_⟩⟩
  · have overflow : s.Raises .stackOverflow := ⟨⟨nnn, hr⟩, hs.ge⟩
    exact ⟨_, overflow.step_eq hf, rfl, rfl, onlyChanges_afterFault s _⟩
  · obtain ⟨call, full⟩ : s.Raises .stackOverflow := raises_of_latched_cause hf h
    exact ⟨call, le_antisymm hsp full⟩

/-- Settles O20: only `RET` pops; the word recorded is the one encoding of `RET`. -/
theorem retOnEmptyStackLatches : Obligations.RetOnEmptyStackLatches := by
  refine ⟨rfl, fun s hf _ => ⟨fun hr hs => ?_, raises_of_latched_cause hf⟩⟩
  have underflow : s.Raises .stackUnderflow := ⟨hr, hs⟩
  have word : 0x00EE#16 = s.wordAt s.pc.toNat := hr.encode_eq
  exact ⟨_, underflow.step_eq hf, word ▸ rfl, rfl, onlyChanges_afterFault s _⟩

/-! ### The state a faulting cycle leaves (R215) -/

/-- Settles O21: the cause decides the state after it; the stack pointer is the one the cycle began with, which the
cause of a stack fault pins. -/
theorem faultingCycleLeavesTheRest : Obligations.FaultingCycleLeavesTheRest := by
  intro s t r hf hsp h hr
  obtain ⟨c, hc, rfl, rfl⟩ := raises_of_step hf h hr
  rw [faultRecord_cause, afterFault_sp]
  refine ⟨onlyChanges_afterFault s c, faultRecord_fpc s c, ?_, fun hne => ?_, ?_, ?_⟩
  · rintro rfl; exact ⟨rfl, rfl⟩
  · cases c with
    | memoryOutOfBounds => exact absurd rfl hne
    | unimplementedOpcode | stackOverflow | stackUnderflow => exact ⟨rfl, rfl⟩
  · rintro rfl; exact le_antisymm hsp hc.2
  · rintro rfl; exact hc.2

end Sys2Proof.Machine
end

section
/-! PROOFS. The rest of 30_encoding.md and 45_unimplemented.md: `decode` and `encode` are inverse to each other (R80,
R83, R85), and which words are unimplemented (R171). -/

namespace Sys2Proof

/-! ### Decoding and encoding (R80, R83, R85) -/

/-- The word of every instruction decodes to the instruction: each field is read back where it was put. -/
theorem decode_encode (i : Instr) : decode (encode i) = .ok i := by
  cases i with
  | nop | cls | ret => decide
  | jp | call | seImm | sneImm | seReg | ldImm | addImm | ldReg | orReg | andReg | xorReg | addReg =>
    simp [encode, Machine.decode_of_digit]

/-- Settles O1: the two bytes of the word make up the word again in either order. -/
theorem decodeOfEncode : Obligations.DecodeOfEncode := fun i _ =>
  ⟨decode_encode i, fun o rest => by simp only [decodeBytes, assembleWord_wordBytes, decode_encode]⟩

/-- Settles O2: the fields taken from a word make up the word again. -/
theorem encodeOfDecode : Obligations.EncodeOfDecode := fun _ _ => encode_of_decode

/-- Settles O6: the decoder evaluated on the document's bytes. -/
theorem workedBytesDecode : Obligations.WorkedBytesDecode := by
  unfold Obligations.WorkedBytesDecode; decide

/-! ### The unimplemented words (R171) -/

/-- A test that accepts has failed where the chain of tests rejects. -/
theorem ite_ok_eq_error {p : Prop} [Decidable p] {i : Instr} {d : Except DecodeReject Instr} {r : DecodeReject} :
    (if p then .ok i else d) = .error r ↔ ¬ p ∧ d = .error r := by
  by_cases hp : p <;> simp [hp]

/-- A word is rejected where every test of R85 fails, the tests as they are written there. -/
theorem decode_unimplemented_iff_tests (op : Word) : decode op = .error (.unimplemented op) ↔
    op ≠ 0x0000#16 ∧ op ≠ 0x00E0#16 ∧ op ≠ 0x00EE#16 ∧
    fieldD1 op ≠ 1#4 ∧ fieldD1 op ≠ 2#4 ∧ fieldD1 op ≠ 3#4 ∧ fieldD1 op ≠ 4#4 ∧
    ¬ (fieldD1 op = 5#4 ∧ fieldD4 op = 0#4) ∧ fieldD1 op ≠ 6#4 ∧ fieldD1 op ≠ 7#4 ∧
    ¬ (fieldD1 op = 8#4 ∧ fieldD4 op = 0#4) ∧ ¬ (fieldD1 op = 8#4 ∧ fieldD4 op = 1#4) ∧
    ¬ (fieldD1 op = 8#4 ∧ fieldD4 op = 2#4) ∧ ¬ (fieldD1 op = 8#4 ∧ fieldD4 op = 3#4) ∧
    ¬ (fieldD1 op = 8#4 ∧ fieldD4 op = 4#4) := by
  simp only [decode, ite_ok_eq_error, and_true, ne_eq]

/-- Settles O5: by the first digit; families 5 and 8 have a second test, and of the others those from 9 up are in no
test. -/
theorem unimplementedWordsExactly : Obligations.UnimplementedWordsExactly := by
  intro op
  rw [decode_unimplemented_iff_tests]
  by_cases h0 : fieldD1 op = 0#4
  · simp [h0]
  have fixed := ne_of_fieldD1_ne_zero h0
  by_cases h5 : fieldD1 op = 5#4
  · simp [h5, fixed]
  by_cases h8 : fieldD1 op = 8#4
  · simp only [h8, ne_eq, fixed, not_false_eq_true, true_and]
    bv_omega
  · simp only [h0, h5, h8, ne_eq, fixed, not_false_eq_true, true_and, false_and, and_true, false_or]
    bv_omega

end Sys2Proof
end

section
/-! PROOFS. The rest of 20_memory.md: the canonical form determines a memory (log entry 11), the word under either
fetch order (R56, R60), the additions to `pc` (R27), and the glyph table under an image (R53). -/

namespace Sys2Proof.Machine

variable {c : Config}

/-! ### The canonical form (log entry 11) -/

/-- At its first listed address a canonical memory does not read as reset left it. -/
theorem get_head_ne_resetByte {lo k : Nat} {x : Byte} {rest : Memory}
    (h : Memory.wfFrom c lo ((k, x) :: rest) = true) : Memory.get c ((k, x) :: rest) k ≠ resetByte c k := by
  obtain ⟨-, -, hx, -⟩ := (wfFrom_cons c lo k x rest).1 h
  rwa [Memory.get, if_pos rfl]

/-- Two canonical memories that read alike do not begin at different addresses. -/
theorem head_le_of_get_eq {lo lo' k k' : Nat} {x x' : Byte} {rest rest' : Memory}
    (h : Memory.wfFrom c lo ((k, x) :: rest) = true) (h' : Memory.wfFrom c lo' ((k', x') :: rest') = true)
    (hg : Memory.get c ((k, x) :: rest) k = Memory.get c ((k', x') :: rest') k) : k' ≤ k := by
  by_contra hlt
  have from_head : Memory.wfFrom c k' ((k', x') :: rest') = true :=
    (wfFrom_cons c k' k' x' rest').2 ⟨le_rfl, ((wfFrom_cons c lo' k' x' rest').1 h').2⟩
  exact get_head_ne_resetByte h (hg.trans (get_of_lt c from_head (Nat.not_le.1 hlt)))

/-- Two canonical memories that read the same at every address are the same list. -/
theorem eq_of_get_eq : ∀ {m m' : Memory} {lo : Nat}, Memory.wfFrom c lo m = true → Memory.wfFrom c lo m' = true →
    (∀ a, Memory.get c m a = Memory.get c m' a) → m = m'
  | [], [], _, _, _, _ => rfl
  | [], (k', x') :: rest', _, _, h', hg => absurd (hg k').symm (get_head_ne_resetByte h')
  | (k, x) :: rest, [], _, h, _, hg => absurd (hg k) (get_head_ne_resetByte h)
  | (k, x) :: rest, (k', x') :: rest', lo, h, h', hg => by
    obtain rfl : k = k' := le_antisymm (head_le_of_get_eq h' h (hg k').symm) (head_le_of_get_eq h h' (hg k))
    obtain ⟨-, -, -, tail⟩ := (wfFrom_cons c lo k x rest).1 h
    obtain ⟨-, -, -, tail'⟩ := (wfFrom_cons c lo k x' rest').1 h'
    have head : x = x' := by simpa only [Memory.get, if_true] using hg k
    have rests : ∀ a, Memory.get c rest a = Memory.get c rest' a := fun a => by
      by_cases ha : a ≤ k
      · rw [get_of_lt c tail (Nat.lt_succ_of_le ha), get_of_lt c tail' (Nat.lt_succ_of_le ha)]
      · have beyond : a ≠ k := by omega
        simpa only [Memory.get, if_neg beyond] using hg a
    rw [head, eq_of_get_eq tail tail' rests]

/-- Settles O9: two canonical lists are compared cell by cell, their heads first. -/
theorem canonicalMemoryIsExtensional : Obligations.CanonicalMemoryIsExtensional := fun _ _ _ => eq_of_get_eq

/-! ### The word under either fetch order (R56, R60) -/

/-- Settles O10: a fetch in range assembles the two bytes at the address in the configuration's order. -/
theorem fetchOrderDecidesTheWord : Obligations.FetchOrderDecidesTheWord := by
  intro c m a
  refine ⟨fun h => ⟨memWord c m a, by rw [fetchWord_eq, if_pos h], ?_⟩, fun h => by
    rw [fetchWord_eq, if_neg (Nat.not_lt.2 h)]⟩
  unfold memWord
  cases c.fetchOrder with
  | highFirst => exact assembleWord_highFirst_toNat _ _
  | lowFirst => exact assembleWord_lowFirst_toNat _ _

/-! ### What the constraints of R7 give -/

/-- Every address, and 4 more, fits in 16 bits (R7, R27). -/
theorem memSize_le_of_wellFormed (h : c.wellFormed = true) : c.memSize ≤ 65532 := by
  simp only [Config.wellFormed, Config.pcCannotWrap, Bool.and_eq_true, decide_eq_true_eq] at h
  tauto

/-- The glyph table ends at the program origin or below (R7, R53). -/
theorem glyphEnd_le_of_wellFormed (h : c.wellFormed = true) : c.glyphBase + c.glyphLen ≤ c.programOrigin := by
  simp only [Config.wellFormed, Config.glyphBelowOrigin, Bool.and_eq_true, decide_eq_true_eq] at h
  tauto

/-- Settles O12: N is at most 65532, so that the fetch's 2 and a skip's 2 both stay below 65536. -/
theorem pcAdditionsDoNotWrap : Obligations.PcAdditionsDoNotWrap := by
  intro c s taken hc hp
  have hN := memSize_le_of_wellFormed hc
  have advanced : s.advance.pc.toNat = s.pc.toNat + 2 := advance_pc_toNat (by omega)
  have skipped := skipIf_pc_toNat taken (s := s.advance) (by omega)
  refine ⟨advanced, by omega, fun op t ht => ?_, ?_, ?_⟩
  · rw [fetch_eq] at ht
    rcases ite_cases ht with ⟨-, ht⟩ | ⟨-, ht⟩
    · cases ht; exact advanced
    · cases ht
  · rw [skipped, advanced]; cases taken <;> rfl
  · rw [skipped, advanced]; split <;> omega

/-- Settles O47: the image is written from the program origin up, and the glyph table ends below it. -/
theorem imageLeavesGlyphTable : Obligations.ImageLeavesGlyphTable := by
  intro c m m' bytes hc hm hl a ha
  obtain ⟨fits, rfl⟩ := (loadImage_eq_some_iff c bytes m m').1 hl
  exact get_setBytes_outside hm fits (.inl (ha.trans_le (glyphEnd_le_of_wellFormed hc)))

end Sys2Proof.Machine
end

section
/-! PROOFS. The rest of 50_cycle_and_host.md and of the rules about all instructions: a cycle completes (R11), when it
ends without a fault (R217, R218), what it leaves alone (R22, R41), and what it never reads (R180). -/

namespace Sys2Proof.Machine

variable {s s' t : State} {i : Instr}

/-! ### Every cycle completes (R11) -/

/-- Every instruction has a next state. -/
theorem exec_total (i : Instr) (s : State) : ∃ t, exec i s = .next t := by
  cases i with
  | ret => exact (exec_ret_pc_frame s).imp fun _ h => h.1
  | call nnn => exact (exec_call_pc_frame nnn s).imp fun _ h => h.1
  | nop | cls | jp | seImm | sneImm | seReg | ldImm | addImm | ldReg | orReg | andReg | xorReg | addReg =>
    exact ⟨_, rfl⟩

/-- Every state has a next state. -/
theorem step_total (s : State) : ∃ t, step s = .next t := by
  by_cases hf : s.fault = none
  · by_cases hp : s.pc.toNat + 1 < Config.hw.memSize
    · by_cases hd : ∃ i, decode (s.wordAt s.pc.toNat) = .ok i
      · obtain ⟨i, hi⟩ := hd
        rw [step_runs ⟨⟨hf, hp⟩, hi⟩]
        exact exec_total i s.advance
      · exact ⟨_, step_of_unimplemented ⟨hf, hp⟩ (not_exists.1 hd)⟩
    · exact ⟨_, step_of_out_of_range hf (Nat.not_lt.1 hp)⟩
  · exact ⟨s, step_of_halted hf⟩

/-- A cycle of the system is a step of its machine. -/
theorem perform_cycle_of_step {y : System} (h : step y.machine = .next t) :
    perform .cycle y = .next (⟨t, .running⟩, cycleResponse t) := by
  simp only [perform, performCycle, h]

/-- Settles O15: no arm of `exec`, no check of the cycle and no operation of the host is without an answer. -/
theorem everyCycleCompletes : Obligations.EveryCycleCompletes := by
  refine ⟨exec_total, step_total, fun o y hl => ?_⟩
  by_cases hc : o = .cycle
  · obtain ⟨t, ht⟩ := step_total y.machine
    exact ⟨_, hc ▸ perform_cycle_of_step ht⟩
  · exact perform_host_accepts y hc hl

/-! ### The instruction a cycle runs (R180) -/

/-- Settles O13: the state the instruction is run on is the advanced one. -/
theorem stepRunsDecodedInstruction : Obligations.StepRunsDecodedInstruction := fun s _ hf hp hd =>
  ⟨s.advance, step_runs ⟨⟨hf, hp⟩, hd⟩, rfl, onlyChanges_advance s, rfl⟩

/-! ### When a cycle faults (R211, R212, R217, R218) -/

/-- Where the instruction's stack check passes, the latch is as it was. -/
theorem exec_fault_of_stackAllows (h : exec i s = .next t) (ha : s.StackAllows i) : t.fault = s.fault := by
  rcases exec_fault h with ⟨kept, -⟩ | ⟨nnn, rfl, full, -⟩ | ⟨rfl, empty, -⟩
  · exact kept
  · exact absurd ha (Nat.not_lt.2 full)
  · exact absurd ha (Nat.not_lt.2 empty.le)

/-- Where the latch stays empty, the instruction's stack check has passed. -/
theorem stackAllows_of_exec (h : exec i s = .next t) (hf : t.fault = none) : s.StackAllows i := by
  rcases exec_fault h with ⟨-, allowed⟩ | ⟨-, -, -, rfl⟩ | ⟨-, -, rfl⟩
  · exact allowed
  · cases hf
  · cases hf

/-- A cycle that leaves the latch empty ran an instruction. -/
theorem runs_of_step (h : step s = .next t) (hf : t.fault = none) :
    ∃ i, s.Runs i ∧ exec i s.advance = .next t := by
  rcases step_cases h with ⟨halted, rfl⟩ | ⟨-, -, rfl⟩ | ⟨-, -, rfl⟩ | ran
  · exact absurd hf halted
  · cases hf
  · cases hf
  · exact ran

/-- Settles O22: each of the three checks that fails latches a fault; where all pass the instruction leaves the latch
alone. -/
theorem cycleFaultsExactlyWhen : Obligations.CycleFaultsExactlyWhen := by
  intro s hf
  constructor
  · rintro ⟨t, ht, htf⟩
    obtain ⟨i, ⟨⟨-, hp⟩, hd⟩, he⟩ := runs_of_step ht htf
    exact ⟨hp, i, hd, (stackAllows_advance s i).1 (stackAllows_of_exec he htf)⟩
  · rintro ⟨hp, i, hd, ha⟩
    obtain ⟨t, ht⟩ := exec_total i s.advance
    exact ⟨t, (step_runs ⟨⟨hf, hp⟩, hd⟩).trans ht,
      (exec_fault_of_stackAllows ht ((stackAllows_advance s i).2 ha)).trans hf⟩

/-- An instruction that faults in its execute half latches the address it was fetched from and its own word, and
changes nothing else (R211, R212, log entry 8). -/
theorem raiseInExecute_of_pc {fpc : Addr} (h : s.pc = fpc + 2#16) (cause : Fault) (i : Instr) :
    (raiseInExecute cause i s).fault = some ⟨cause, fpc, some (encode i)⟩ ∧
      OnlyChanges [.fault] s (raiseInExecute cause i s) := by
  refine ⟨?_, onlyChanges_setFault s _⟩
  rw [raiseInExecute, raise_eq, setFault_fault, h, BitVec.add_sub_cancel]

/-- Settles O56: both raise in the execute half, where `pc` is 2 past the instruction. -/
theorem executeFaultRecordsTheInstruction : Obligations.ExecuteFaultRecordsTheInstruction := fun s nnn _ hpc =>
  ⟨fun hs => ⟨_, execCall_of_le nnn s hs.ge, raiseInExecute_of_pc hpc _ _⟩,
    fun hs => ⟨_, execRet_of_zero s hs, raiseInExecute_of_pc hpc _ _⟩⟩

/-! ### What a cycle leaves alone (R22, R41) -/

/-- Settles O35: the carry is what `ADD Vx,Vy` writes last, and no other row of R23 has `VF` among the registers
written but as its destination. -/
theorem flagRegisterWriters : Obligations.FlagRegisterWriters := by
  intro i s t h
  refine ⟨?_, fun notAddReg notLdImm notAddImm notLdReg notOrReg notAndReg notXorReg =>
    exec_onlyRegsChange h flagReg ?_⟩
  · rintro x y rfl
    obtain ⟨-, u, runs, -, carry, -⟩ := addReportsCarry x y s
    cases runs.symm.trans h
    exact carry
  · cases i with
    | addReg x y => exact absurd rfl (notAddReg x y)
    | ldImm x kk => exact fun named => notLdImm kk (List.mem_singleton.1 named ▸ rfl)
    | addImm x kk => exact fun named => notAddImm kk (List.mem_singleton.1 named ▸ rfl)
    | ldReg x y => exact fun named => notLdReg y (List.mem_singleton.1 named ▸ rfl)
    | orReg x y => exact fun named => notOrReg y (List.mem_singleton.1 named ▸ rfl)
    | andReg x y => exact fun named => notAndReg y (List.mem_singleton.1 named ▸ rfl)
    | xorReg x y => exact fun named => notXorReg y (List.mem_singleton.1 named ▸ rfl)
    | nop | cls | ret | jp | call | seImm | sneImm | seReg => exact List.not_mem_nil

/-- What no cycle changes, and the one thing it can do to the display (10_state.md R41). -/
theorem step_keeps (h : step s = .next t) :
    t.mem = s.mem ∧ t.i = s.i ∧ t.dt = s.dt ∧ t.st = s.st ∧ t.key = s.key ∧
      (t.disp = s.disp ∨ (s.Runs .cls ∧ t.disp = clearDisplay Config.hw.displayW Config.hw.displayH)) := by
  rcases step_cases h with ⟨-, rfl⟩ | ⟨-, -, rfl⟩ | ⟨-, -, rfl⟩ | ⟨i, runs, he⟩
  · exact ⟨rfl, rfl, rfl, rfl, rfl, .inl rfl⟩
  · exact ⟨rfl, rfl, rfl, rfl, rfl, .inl rfl⟩
  · exact ⟨rfl, rfl, rfl, rfl, rfl, .inl rfl⟩
  · obtain ⟨mem, index, delay, sound, keys, same | ⟨rfl, cleared⟩⟩ := exec_keeps he
    · exact ⟨mem, index, delay, sound, keys, .inl same⟩
    · exact ⟨mem, index, delay, sound, keys, .inr ⟨runs, cleared⟩⟩

/-- Settles O37: memory is the same list, so that every byte reads as before; the other elements are compared one by
one. -/
theorem cycleWritesOnlyItsElements : Obligations.CycleWritesOnlyItsElements := by
  intro s t h
  obtain ⟨mem, index, delay, sound, keys, disp⟩ := step_keeps h
  refine ⟨fun e he => ?_, disp.imp_right fun ⟨runs, cleared⟩ => ⟨runs, fun c r hc hr => ?_⟩⟩
  · cases e with
    | mem => exact fun a => by rw [State.byteAt, State.byteAt, mem]
    | i => exact index
    | dt => exact delay
    | st => exact sound
    | key => exact keys
    | v | pc | stack | sp | disp | fault => simp at he
  · rw [State.pixel, cleared]; exact clearDisplay_pixel hc hr

/-! ### What a cycle never reads (R180) -/

/-- A relation between states under which a cycle cannot tell them apart: related states read the same wherever a
cycle reads, and every update a cycle makes, made to both, keeps them related. -/
structure CycleCongruence (R : State → State → Prop) : Prop where
  word : ∀ {s s'}, R s s' → ∀ a, s'.wordAt a = s.wordAt a
  reg : ∀ {s s'}, R s s' → ∀ r, s'.reg r = s.reg r
  pc : ∀ {s s'}, R s s' → s'.pc = s.pc
  stack : ∀ {s s'}, R s s' → s'.stack = s.stack
  sp : ∀ {s s'}, R s s' → s'.sp = s.sp
  fault : ∀ {s s'}, R s s' → s'.fault = s.fault
  setPc : ∀ {s s'}, R s s' → ∀ a, R (s.setPc a) (s'.setPc a)
  setReg : ∀ {s s'}, R s s' → ∀ r b, R (s.setReg r b) (s'.setReg r b)
  setStack : ∀ {s s'}, R s s' → ∀ k n, R (s.setStack k n) (s'.setStack k n)
  setDisp : ∀ {s s'}, R s s' → ∀ d, R (s.setDisp d) (s'.setDisp d)
  setFault : ∀ {s s'}, R s s' → ∀ f, R (s.setFault f) (s'.setFault f)

namespace CycleCongruence

variable {R : State → State → Prop}

theorem advance (hR : CycleCongruence R) (h : R s s') : R s.advance s'.advance := by
  rw [State.advance, State.advance, hR.pc h]
  exact hR.setPc h _

theorem skipIf (hR : CycleCongruence R) (h : R s s') (p : Bool) : R (skipIf p s) (skipIf p s') := by
  cases p with
  | false => exact h
  | true => exact hR.advance h

theorem raiseInExecute (hR : CycleCongruence R) (h : R s s') (cause : Fault) (i : Instr) :
    R (raiseInExecute cause i s) (raiseInExecute cause i s') := by
  rw [Machine.raiseInExecute, Machine.raiseInExecute, raise_eq, raise_eq, hR.pc h]
  exact hR.setFault h _

/-- An instruction leads related states to related states. -/
theorem exec (hR : CycleCongruence R) (h : R s s') (i : Instr) :
    ∃ t t', exec i s = .next t ∧ exec i s' = .next t' ∧ R t t' := by
  have sp := hR.sp h
  cases i with
  | nop => exact ⟨s, s', rfl, rfl, h⟩
  | cls => exact ⟨_, _, rfl, rfl, hR.setDisp h _⟩
  | ret =>
    by_cases hs : s.sp = 0
    · exact ⟨_, _, execRet_of_zero s hs, execRet_of_zero s' (sp.trans hs), hR.raiseInExecute h _ _⟩
    · have hs := Nat.pos_of_ne_zero hs
      refine ⟨_, _, execRet_of_pos s hs, execRet_of_pos s' (sp ▸ hs), ?_⟩
      rw [State.slot, State.slot, hR.stack h, sp]
      exact hR.setPc (hR.setStack h _ _) _
  | jp nnn => exact ⟨_, _, rfl, rfl, hR.setPc h _⟩
  | call nnn =>
    by_cases hs : s.sp < Config.hw.stackCapacity
    · refine ⟨_, _, execCall_of_lt nnn s hs, execCall_of_lt nnn s' (sp ▸ hs), ?_⟩
      simp only [hR.stack h, sp, hR.pc h]
      exact hR.setPc (hR.setStack h _ _) _
    · have hs := Nat.not_lt.1 hs
      exact ⟨_, _, execCall_of_le nnn s hs, execCall_of_le nnn s' (sp ▸ hs), hR.raiseInExecute h _ _⟩
  | seImm | sneImm | seReg =>
    refine ⟨_, _, rfl, rfl, ?_⟩
    simp only [hR.reg h]
    exact hR.skipIf h _
  | ldImm x kk => exact ⟨_, _, rfl, rfl, hR.setReg h x kk⟩
  | addImm | ldReg | orReg | andReg | xorReg =>
    refine ⟨_, _, rfl, rfl, ?_⟩
    simp only [hR.reg h]
    exact hR.setReg h _ _
  | addReg =>
    refine ⟨_, _, rfl, rfl, ?_⟩
    simp only [hR.reg h]
    exact hR.setReg (hR.setReg h _ _) _ _

/-- A cycle leads related states to related states. -/
theorem step (hR : CycleCongruence R) (h : R s s') :
    ∃ t t', step s = .next t ∧ step s' = .next t' ∧ R t t' := by
  have pc := hR.pc h
  have word : s'.wordAt s'.pc.toNat = s.wordAt s.pc.toNat := pc ▸ hR.word h s.pc.toNat
  rw [step_eq s, step_eq s', hR.fault h, word, pc]
  by_cases hf : s.fault ≠ none
  · exact ⟨s, s', if_pos hf, if_pos hf, h⟩
  rw [if_neg hf, if_neg hf]
  by_cases hp : s.pc.toNat + 1 < Config.hw.memSize
  · rw [if_pos hp, if_pos hp]
    cases decode (s.wordAt s.pc.toNat) with
    | ok i => exact hR.exec (hR.advance h) i
    | error r => exact ⟨_, _, rfl, rfl, hR.setFault (hR.advance h) _⟩
  · exact ⟨_, _, if_neg hp, if_neg hp, hR.setFault h _⟩

end CycleCongruence

theorem OnlyChanges.setReg {es : List Element} (h : OnlyChanges es s s') (r : RegNum) (b : Byte) :
    OnlyChanges es (s.setReg r b) (s'.setReg r b) := fun e he => by
  have := h e he
  cases e <;> simp_all [Unchanged, setReg_reg]

/-- The word at an address is assembled from the byte there and the next (R56). -/
theorem wordAt_eq_assembleWord (s : State) (a : Nat) :
    s.wordAt a = assembleWord Config.hw.fetchOrder (s.byteAt a) (s.byteAt (a + 1)) := rfl

theorem OnlyChanges.wordAt_eq {es : List Element} (h : OnlyChanges es s s') (he : .mem ∉ es) (a : Nat) :
    s'.wordAt a = s.wordAt a := by
  have bytes : ∀ b, s'.byteAt b = s.byteAt b := h .mem he
  rw [wordAt_eq_assembleWord, wordAt_eq_assembleWord, bytes, bytes]

/-- The elements a cycle reads are the rest of the elements: all but `I`, the timers, the display and the keys. -/
theorem agreeOnCore_iff : AgreeOnCore s s' ↔ OnlyChanges [.i, .dt, .st, .disp, .key] s s' := by
  have rest : ∀ e : Element, e ∈ coreElements ↔ e ∉ [.i, .dt, .st, .disp, .key] := fun e => by cases e <;> decide
  simp only [AgreeOnCore, OnlyChanges, rest]

/-- A cycle cannot tell apart two states that agree on what it reads. -/
theorem cycleCongruence_agreeOnCore : CycleCongruence AgreeOnCore where
  word h a := (agreeOnCore_iff.1 h).wordAt_eq (by decide) a
  reg h := h .v (by decide)
  pc h := h .pc (by decide)
  stack h := (agreeOnCore_iff.1 h).stack_eq (by decide)
  sp h := h .sp (by decide)
  fault h := h .fault (by decide)
  setPc h a := agreeOnCore_iff.2 ((agreeOnCore_iff.1 h).setPc a)
  setReg h r b := agreeOnCore_iff.2 ((agreeOnCore_iff.1 h).setReg r b)
  setStack h k n := agreeOnCore_iff.2 ((agreeOnCore_iff.1 h).setStack k n)
  setDisp h d := agreeOnCore_iff.2 ((agreeOnCore_iff.1 h).setDisp d)
  setFault h f := agreeOnCore_iff.2 ((agreeOnCore_iff.1 h).setFault f)

/-- Settles O38: agreement on what a cycle reads is a congruence of the cycle. -/
theorem cycleIgnoresHostElements : Obligations.CycleIgnoresHostElements := fun _ _ =>
  cycleCongruence_agreeOnCore.step

/-! ### The end of a run (R192) -/

/-- A jump to the address it is fetched from leaves the whole state as it was (R113). -/
theorem step_of_finishedNormally (h : s.FinishedNormally) : step s = .next s := by
  obtain ⟨nnn, runs, self⟩ := h
  rw [step_runs runs, exec_jp, self]; rfl

/-- Settles O42: by induction on the number of cycles, each a jump to itself. -/
theorem jumpToSelfHoldsStill : Obligations.JumpToSelfHoldsStill := by
  intro s n h
  induction n with
  | zero => rfl
  | succ n ih => rw [run_succ_of_next (step_of_finishedNormally h), ih]

end Sys2Proof.Machine
end

section
/-! PROOFS. The host and the core together: sequences of operations (R184), ticks and keys against a cycle (R191), the
launch state (R242), the times of `LoadImage` (R186, R194, log entry 9), placing a word (log entry 12), and a run with
no image (R242). -/

namespace Sys2Proof.Machine

variable {s t : State} {o : Operation} {y y' z : System} {a : Response} {ops : List Operation} {as : List Response}

/-! ### Sequences of operations (R184) -/

theorem runOperations_cons_of_next (h : perform o y = .next (y', a)) (hs : runOperations ops y' = .next (z, as)) :
    runOperations (o :: ops) y = .next (z, a :: as) := by
  simp only [runOperations, h, hs]

/-- A sequence that completes begins with an operation that has a move. -/
theorem perform_of_runOperations_cons (h : runOperations (o :: ops) y = .next (z, as)) :
    ∃ y' a as', perform o y = .next (y', a) ∧ runOperations ops y' = .next (z, as') := by
  rw [runOperations] at h
  split at h
  · rename_i y' a first
    split at h
    · rename_i u as' rest
      cases h; exact ⟨y', a, as', first, rest⟩
    · cases h
    · cases h
  · cases h
  · cases h

/-- What every admitted operation keeps, every sequence of admitted operations keeps. -/
theorem runOperations_keeps {Admitted : Operation → Prop} {P : System → Prop}
    (keeps : ∀ o y y' a, Admitted o → P y → perform o y = .next (y', a) → P y') :
    ∀ {ops : List Operation} {y : System} {as : List Response}, (∀ o ∈ ops, Admitted o) → P y →
      runOperations ops y = .next (z, as) → P z
  | [], _, _, _, hy, h => by cases h; exact hy
  | o :: ops, y, _, ha, hy, h => by
    obtain ⟨admitted, rest⟩ := List.forall_mem_cons.1 ha
    obtain ⟨y', a, _, first, last⟩ := perform_of_runOperations_cons h
    exact runOperations_keeps keeps rest (keeps o y y' a admitted hy first) last

/-! ### Ticks and key writes against a cycle (R191) -/

/-- An update of the timers and the keys that reads nothing else is one a cycle cannot see: each element a cycle reads
is as it was, and each write a cycle makes can be made before the update or after it. -/
theorem cycleCongruence_hostUpdate (delay sound : Byte → Byte)
    (keys : Vector Bool Config.hw.keyCount → Vector Bool Config.hw.keyCount) :
    CycleCongruence fun s s' => s' = ((s.setDt (delay s.dt)).setSt (sound s.st)).setKey (keys s.key) := by
  constructor <;> rintro s _ rfl <;> intros <;> rfl

/-- What a cycle answers depends on the latch only. -/
theorem cycleResponse_congr (h : t.fault = s.fault) : cycleResponse t = cycleResponse s := by
  rw [cycleResponse, cycleResponse, h]

/-- An operation that makes one update of the machine, which a cycle cannot see, commutes with the cycle. -/
theorem runOperations_commute_cycle {update : State → State} (hR : CycleCongruence fun s s' => s' = update s)
    (ho : ∀ y : System, perform o y = .next (⟨update y.machine, y.phase⟩, .ok)) (y : System) :
    ∃ z a, runOperations [o, .cycle] y = .next (z, [.ok, a]) ∧ runOperations [.cycle, o] y = .next (z, [a, .ok]) := by
  obtain ⟨t, _, cycle, updated_cycle, rfl⟩ := hR.step (s := y.machine) rfl
  refine ⟨⟨update t, .running⟩, cycleResponse t, ?_,
    runOperations_cons_of_next (perform_cycle_of_step cycle) (runOperations_cons_of_next (ho ⟨t, .running⟩) rfl)⟩
  rw [← cycleResponse_congr (hR.fault (s := t) rfl)]
  have second : perform .cycle ⟨update y.machine, y.phase⟩ = _ := perform_cycle_of_step updated_cycle
  exact runOperations_cons_of_next (ho y) (runOperations_cons_of_next second rfl)

/-- Settles O39: each of the three is one update of a timer or of the keys, which no cycle reads or writes. -/
theorem ticksAndKeysCommuteWithCycle : Obligations.TicksAndKeysCommuteWithCycle := by
  rintro y o (rfl | rfl | ⟨keys, rfl⟩)
  · exact runOperations_commute_cycle (cycleCongruence_hostUpdate countDown id id) (fun _ => rfl) y
  · exact runOperations_commute_cycle (cycleCongruence_hostUpdate id countDown id) (fun _ => rfl) y
  · exact runOperations_commute_cycle (cycleCongruence_hostUpdate id id fun _ => keys) (fun _ => rfl) y

/-! ### The launch state (R242) -/

/-- Settles O44: memory is the empty list after `Reset`, and the image is then written from the program origin up. -/
theorem launchStateHoldsTheImage : Obligations.LaunchStateHoldsTheImage := by
  intro y keys bytes fits
  have load := perform_loadImage_of_fits (y := launch keys) (bytes := bytes) rfl fits
  exact ⟨_, runOperations_cons_of_next rfl (runOperations_cons_of_next load rfl),
    fun _ => get_setBytes_inside (wf_reset Config.hw) fits, fun _ => get_setBytes_outside (wf_reset Config.hw) fits,
    onlyChanges_setMem _ _⟩

/-! ### The times of `LoadImage` (R186, R194, log entry 9) -/

/-- Without a `Reset` the first phase goes on only where it was, and no cycle is run and no image taken. -/
theorem built_of_perform (h : perform o y = .next (y', a)) (hr : ∀ keys, o ≠ .reset keys) (hb : y'.phase = .built) :
    y.phase = .built ∧ o ≠ .cycle ∧ ∀ bytes, o = .loadImage bytes → a ≠ .ok := by
  rcases perform_cases h with ⟨keys, ho, -⟩ | ⟨_, _, -, -, -, rfl, -⟩ | ⟨_, rfl, hp, -, -, rfl⟩ | ⟨_, rfl, rfl, -⟩ |
    ⟨rfl, rfl, -⟩ | ⟨rfl, rfl, -⟩ | ⟨rfl, rfl, -⟩ | ⟨_, -, -, rfl, -⟩
  · exact absurd ho (hr keys)
  · cases hb
  · exact ⟨hp, by simp, by simp⟩
  · exact ⟨hb, by simp, by simp⟩
  · exact ⟨hb, by simp, by simp⟩
  · exact ⟨hb, by simp, by simp⟩
  · exact ⟨hb, by simp, by simp⟩
  · cases hb

/-- An image refused for its length leaves the system as it is. -/
theorem eq_of_perform_imageRefused {bytes : List Byte} (h : perform (.loadImage bytes) y = .next (y', .imageRefused)) :
    y' = y := by
  by_cases hp : y.phase = .built
  · by_cases fits : Config.hw.programOrigin + bytes.length ≤ Config.hw.memSize
    · cases (perform_loadImage_of_fits hp fits).symm.trans h
    · cases (perform_loadImage_of_not_fits hp (Nat.not_le.1 fits)).symm.trans h; rfl
  · cases (perform_loadImage_of_not_built hp).symm.trans h

/-- Settles O46: the first phase is left by a cycle and by an image taken, and only `Reset` enters it. -/
theorem laterImageHasNoMove : Obligations.LaterImageHasNoMove := by
  have leaves : ∀ o y y' a, (∀ keys, o ≠ .reset keys) → y.phase ≠ .built → perform o y = .next (y', a) →
      y'.phase ≠ .built := fun o y y' a hr hp h hb => hp (built_of_perform h hr hb).1
  refine ⟨fun y bytes => perform_loadImage_of_not_built, fun y y' a h hb => ?_, fun y y' bytes h hb => ?_,
    fun y y' bytes => eq_of_perform_imageRefused, leaves, fun ops y y' as bytes ha hp h => ?_⟩
  · obtain ⟨-, notCycle, -⟩ := built_of_perform h (by simp) hb
    exact notCycle rfl
  · obtain ⟨-, -, notTaken⟩ := built_of_perform h (by simp) hb
    exact notTaken bytes rfl rfl
  · exact perform_loadImage_of_not_built (runOperations_keeps leaves ha hp h)

/-! ### Placing a word (log entry 12) -/

/-- Where the state can fetch, the word is placed at its `pc`. -/
theorem placeAddr_of_fetches (h : s.Fetches) : placeAddr s = s.pc.toNat := if_pos h.2

/-- Placing a word writes memory, `pc` and the latch only. -/
theorem onlyChanges_placeWord (op : Word) (s : State) : OnlyChanges [.pc, .fault, .mem] s (placeWord op s) := by
  show OnlyChanges _ s (((s.setMem _).setPc _).setFault none)
  exact (((onlyChanges_setMem s _).mono (by simp)).trans ((onlyChanges_setPc _ _).mono (by simp))).trans
    ((onlyChanges_setFault _ none).mono (by simp))

/-- A word the table numbers by all its 16 bits is that number. -/
theorem tableWord_toNat {w : Nat} (h : w < 65536) : (tableWord 16 w).toNat = w := by
  rw [tableWord, BitVec.toNat_ofNat, Nat.mod_mod]; exact Nat.mod_eq_of_lt h

/-- Settles O50: the word is placed where the state can fetch it; a state that could fetch before keeps its `pc` and its
empty latch. -/
theorem placedWordIsFetched : Obligations.PlacedWordIsFetched := by
  intro s w hw hm
  refine ⟨⟨rfl, ?_⟩, ?_, fun h => ?_⟩
  · rw [State.withFetchWord, placeWord_pc]; exact placeAddr_lt s
  · rw [State.withFetchWord, wordAt_placeWord _ hm, tableWord_toNat hw]
  · have pc : (s.withFetchWord 16 w).pc = s.pc :=
      BitVec.eq_of_toNat_eq ((placeWord_pc _ s).trans (placeAddr_of_fetches h))
    exact ⟨pc, ((onlyChanges_placeWord _ s).strike pc).strike h.1.symm⟩

/-! ### A run with no image (R100, R242) -/

/-- Above the glyph table memory holds 0 after reset (R42). -/
theorem resetByte_of_le {c : Config} {a : Nat} (h : c.glyphBase + c.glyphLen ≤ a) : resetByte c a = 0#8 :=
  if_neg fun inside => absurd inside.2 (Nat.not_lt.2 h)

/-- The reset state with `pc` moved on by k words. -/
def State.slid (keys : Vector Bool Config.hw.keyCount) (k : Nat) : State :=
  (State.resetWithKeys keys).setPc (BitVec.ofNat 16 (Config.hw.programOrigin + 2 * k))

section
variable (keys : Vector Bool Config.hw.keyCount) {k : Nat}

theorem slid_pc_toNat (h : Config.hw.programOrigin + 2 * k ≤ Config.hw.memSize) :
    (State.slid keys k).pc.toNat = Config.hw.programOrigin + 2 * k := by
  have bound : Config.hw.programOrigin + 2 * k ≤ 4096 := h
  exact (BitVec.toNat_ofNat _ 16).trans (Nat.mod_eq_of_lt (by omega))

/-- Within memory the word at `pc` is 0, a `NOP`. -/
theorem slid_runs_nop (h : Config.hw.programOrigin + 2 * (k + 1) ≤ Config.hw.memSize) :
    (State.slid keys k).Runs .nop := by
  have pc := slid_pc_toNat keys (k := k) (by omega)
  have glyphs : Config.hw.glyphBase + Config.hw.glyphLen ≤ Config.hw.programOrigin := by decide
  have zero : ∀ a, Config.hw.programOrigin ≤ a → (State.slid keys k).byteAt a = 0#8 := fun a ha =>
    resetByte_of_le (glyphs.trans ha)
  refine ⟨⟨rfl, by omega⟩, ?_⟩
  rw [wordAt_eq_assembleWord, pc, zero _ (by omega), zero _ (by omega)]; decide

/-- Each cycle within memory moves `pc` on by one word. -/
theorem step_slid (h : Config.hw.programOrigin + 2 * (k + 1) ≤ Config.hw.memSize) :
    step (State.slid keys k) = .next (State.slid keys (k + 1)) := by
  have next : BitVec.ofNat 16 (Config.hw.programOrigin + 2 * k) + 2#16 =
      BitVec.ofNat 16 (Config.hw.programOrigin + 2 * (k + 1)) := by
    rw [← BitVec.ofNat_add]; rfl
  rw [step_runs (slid_runs_nop keys h), exec_nop, State.slid, State.slid, ← next]; rfl

/-- As long as memory lasts, the first k cycles of a run take the machine k words on. -/
theorem run_slid (n : Nat) : ∀ (k j : Nat), Config.hw.programOrigin + 2 * (j + k) ≤ Config.hw.memSize →
    Sys2Proof.core.run (k + n) (State.slid keys j) = Sys2Proof.core.run n (State.slid keys (j + k))
  | 0, j, _ => by rw [Nat.zero_add, Nat.add_zero]
  | k + 1, j, h => by
    rw [Nat.add_right_comm, run_succ_of_next (step_slid keys (by omega)), run_slid n k (j + 1) (by omega),
      Nat.add_right_comm]
    rfl

end

/-- Settles O55: the run slides to the end of memory, where the next cycle cannot fetch. -/
theorem unloadedMemoryIsANopSlide : Obligations.UnloadedMemoryIsANopSlide := by
  intro keys
  constructor
  · intro k hk
    have run := run_slid keys 0 k 0 (by omega)
    rw [Nat.zero_add] at run
    exact ⟨_, run, slid_pc_toNat keys hk, onlyChanges_setPc _ _⟩
  · have run := run_slid keys 1 1792 0 (by decide)
    have pc := slid_pc_toNat keys (k := 1792) (by decide)
    have fault := step_of_out_of_range (s := State.slid keys 1792) rfl (by rw [pc]; decide)
    exact ⟨_, run.trans (run_succ_of_next fault 0), pc, rfl⟩

end Sys2Proof.Machine
end

section
/-! PROOFS. The invariants: of the machine under a cycle, of the system under every operation of the host, and the
elements no operation changes. -/

namespace Sys2Proof.Machine

variable {s t : State} {i : Instr} {c : Fault} {y y' : System} {o : Operation} {a : Response}

/-! ### The stack and `pc` within their bounds (R27, R31, R112) -/

/-- The part of the invariant that an instruction keeps by its own updates. -/
structure State.Bounded (s : State) : Prop where
  sp_le : s.sp ≤ Config.hw.stackCapacity
  live_le : ∀ j, j < s.sp → (s.slot j).toNat ≤ Config.hw.memSize
  pc_le : s.pc.toNat ≤ Config.hw.memSize + 2

theorem State.Inv.bounded (h : s.Inv) : s.Bounded := ⟨h.sp_le, h.live_le, h.pc_le⟩

namespace State.Bounded

theorem setPc (h : s.Bounded) {a : Addr} (ha : a.toNat ≤ Config.hw.memSize + 2) : (s.setPc a).Bounded :=
  ⟨h.sp_le, h.live_le, ha⟩

theorem setFault (h : s.Bounded) (f : Option FaultRecord) : (s.setFault f).Bounded := ⟨h.sp_le, h.live_le, h.pc_le⟩

theorem setDisp (h : s.Bounded) (d : Display Config.hw.displayW Config.hw.displayH) : (s.setDisp d).Bounded :=
  ⟨h.sp_le, h.live_le, h.pc_le⟩

theorem setReg (h : s.Bounded) (r : RegNum) (b : Byte) : (s.setReg r b).Bounded := ⟨h.sp_le, h.live_le, h.pc_le⟩

/-- A push of an address within memory, or just past it, adds a live slot that is. -/
theorem push (h : s.Bounded) (hs : s.sp < Config.hw.stackCapacity) {v : Addr} (hv : v.toNat ≤ Config.hw.memSize) :
    (s.setStack (s.stack.set s.sp v hs) (s.sp + 1)).Bounded := by
  refine ⟨hs, fun j hj => ?_, h.pc_le⟩
  rw [slot_push s hs]
  split
  · exact hv
  · rename_i hne
    exact h.live_le j (lt_of_le_of_ne (Nat.le_of_lt_succ hj) hne)

/-- A pop takes a live slot away. -/
theorem pop (h : s.Bounded) : (s.setStack s.stack (s.sp - 1)).Bounded :=
  ⟨(Nat.sub_le _ 1).trans h.sp_le, fun j hj => h.live_le j (hj.trans_le (Nat.sub_le _ 1)), h.pc_le⟩

end State.Bounded

/-- After a fetch in range `pc` is at most N (R27). -/
theorem advance_pc_le (h : s.pc.toNat + 1 < Config.hw.memSize) : s.advance.pc.toNat ≤ Config.hw.memSize := by
  rw [advance_pc, add_two_toNat h]; omega

theorem State.Bounded.advance (h : s.Bounded) (hp : s.pc.toNat + 1 < Config.hw.memSize) : s.advance.Bounded :=
  h.setPc ((advance_pc_le hp).trans (Nat.le_add_right _ 2))

/-- A target of a jump or a call is an address of memory (R84). -/
theorem target_toNat_lt (nnn : Addr12) : (target nnn).toNat < Config.hw.memSize := by
  rw [target_toNat]; exact nnn.isLt

/-- A skip from an address that is at most N leaves `pc` at most N + 2 (R27). -/
theorem State.Bounded.skipIf (h : s.Bounded) (hp : s.pc.toNat ≤ Config.hw.memSize) (p : Bool) :
    (skipIf p s).Bounded := by
  have small : s.pc.toNat ≤ 4096 := hp
  rw [skipIf_keeps]
  refine h.setPc ?_
  rw [skipIf_pc_toNat p (by omega)]
  split <;> omega

/-- From an address that is at most N an instruction that completes leaves the stack and `pc` within bounds. -/
theorem State.Bounded.exec (h : s.Bounded) (hp : s.pc.toNat ≤ Config.hw.memSize) (he : exec i s = .next t) :
    t.Bounded := by
  cases i with
  | nop => cases he; exact h
  | cls => cases he; exact h.setDisp _
  | jp nnn => cases he; exact h.setPc ((target_toNat_lt nnn).le.trans (Nat.le_add_right _ 2))
  | call nnn =>
    by_cases hs : s.sp < Config.hw.stackCapacity
    · cases (execCall_of_lt nnn s hs).symm.trans he
      exact (h.push hs hp).setPc ((target_toNat_lt nnn).le.trans (Nat.le_add_right _ 2))
    · cases (execCall_of_le nnn s (Nat.not_lt.1 hs)).symm.trans he
      exact h.setFault _
  | ret =>
    by_cases hs : 0 < s.sp
    · cases (execRet_of_pos s hs).symm.trans he
      exact h.pop.setPc ((h.live_le _ (Nat.sub_lt hs Nat.one_pos)).trans (Nat.le_add_right _ 2))
    · cases (execRet_of_zero s (Nat.eq_zero_of_not_pos hs)).symm.trans he
      exact h.setFault _
  | seImm | sneImm | seReg => cases he; exact h.skipIf hp _
  | ldImm | addImm | ldReg | orReg | andReg | xorReg => cases he; exact h.setReg _ _
  | addReg => cases he; exact (h.setReg _ _).setReg _ _

/-! ### The latch (R210 to R215) -/

/-- The record of a fault is true of the state the fault leaves. -/
theorem State.Raises.faultIsTrue (h : s.Raises c) (hs : s.sp ≤ Config.hw.stackCapacity) :
    FaultIsTrue (s.afterFault c) (s.afterFault c).fault := by
  cases c with
  | memoryOutOfBounds => exact ⟨rfl, rfl, h⟩
  | unimplementedOpcode =>
    obtain ⟨⟨-, hp⟩, none_decodes⟩ := h
    refine ⟨rfl, rfl, hp, ?_⟩
    cases e : decode (s.wordAt s.pc.toNat) with
    | ok i => exact absurd e (none_decodes i)
    | error r => exact e.trans (congrArg _ (decode_error e))
  | stackOverflow =>
    obtain ⟨⟨nnn, ⟨-, hp⟩, hd⟩, full⟩ := h
    exact ⟨rfl, rfl, hp, ⟨nnn, hd⟩, le_antisymm hs full⟩
  | stackUnderflow =>
    obtain ⟨⟨⟨-, hp⟩, hd⟩, empty⟩ := h
    exact ⟨rfl, rfl, hp, hd, empty⟩

/-! ### A cycle keeps the machine's invariant -/

/-- A cycle leaves the stack and `pc` within bounds. -/
theorem State.Bounded.step (h : s.Bounded) (hs : step s = .next t) : t.Bounded := by
  rcases step_cases hs with ⟨-, rfl⟩ | ⟨-, -, rfl⟩ | ⟨⟨-, hp⟩, -, rfl⟩ | ⟨i, ⟨⟨-, hp⟩, -⟩, he⟩
  · exact h
  · exact h.setFault _
  · exact (h.advance hp).setFault _
  · exact (h.advance hp).exec (advance_pc_le hp) he

/-- A cycle leaves a latch that tells the truth. -/
theorem State.Inv.step_faultIsTrue (h : s.Inv) (hs : step s = .next t) : FaultIsTrue t t.fault := by
  by_cases hf : s.fault = none
  · rcases step_fault_cases hf hs with empty | ⟨c, raises, rfl⟩
    · rw [empty]; trivial
    · exact raises.faultIsTrue h.sp_le
  · cases (step_of_halted hf).symm.trans hs
    exact h.fault_true

theorem State.Inv.step (h : s.Inv) (hs : step s = .next t) : t.Inv := by
  obtain ⟨mem, -⟩ := step_keeps hs
  obtain ⟨sp_le, live_le, pc_le⟩ := h.bounded.step hs
  exact ⟨mem ▸ h.mem_wf, sp_le, live_le, pc_le, h.step_faultIsTrue hs⟩

/-- Settles O52: memory is not written, the bounds are kept by each update an instruction makes, and a fault latches
what the cycle met. -/
theorem stepKeepsTheInvariant : Obligations.StepKeepsTheInvariant := fun _ _ => State.Inv.step

/-! ### Reset (R42) -/

theorem resetWithKeys_inv (keys : Vector Bool Config.hw.keyCount) : (State.resetWithKeys keys).Inv where
  mem_wf := rfl
  sp_le := Nat.zero_le _
  live_le _ hj := absurd hj (Nat.not_lt_zero _)
  pc_le := by show (BitVec.ofNat 16 Config.hw.programOrigin).toNat ≤ _; decide
  fault_true := trivial

theorem resetWithKeys_untouched (keys : Vector Bool Config.hw.keyCount) : (State.resetWithKeys keys).Untouched :=
  ⟨rfl, rfl, rfl, rfl, fun _ _ => rfl⟩

theorem launch_inv (keys : Vector Bool Config.hw.keyCount) : (launch keys).Inv :=
  ⟨resetWithKeys_inv keys, fun _ => ⟨rfl, rfl, rfl⟩⟩

/-- Settles O51: each element is read off the reset state. -/
theorem resetMeetsTheInvariant : Obligations.ResetMeetsTheInvariant := fun keys =>
  ⟨resetWithKeys_inv keys, resetWithKeys_untouched keys, launch_inv keys⟩

/-! ### Every operation keeps the system's invariant -/

/-- What the latch says is about memory, `pc` and the stack pointer. -/
theorem faultIsTrue_congr {f : Option FaultRecord} (hmem : t.mem = s.mem) (hpc : t.pc = s.pc) (hsp : t.sp = s.sp)
    (h : FaultIsTrue s f) : FaultIsTrue t f := by
  have word : ∀ a, t.wordAt a = s.wordAt a := fun a => by rw [State.wordAt, State.wordAt, hmem]
  rcases f with _ | ⟨c, fpc, op⟩
  · trivial
  · cases c <;> simpa only [FaultIsTrue, word, hpc, hsp] using h

/-- The invariant does not speak of `I`, the registers, the timers, the display or the keys. -/
theorem State.Inv.congr (h : s.Inv) (hmem : t.mem = s.mem) (hstack : t.stack = s.stack) (hsp : t.sp = s.sp)
    (hpc : t.pc = s.pc) (hfault : t.fault = s.fault) : t.Inv where
  mem_wf := hmem ▸ h.mem_wf
  sp_le := hsp ▸ h.sp_le
  live_le j hj := by rw [State.slot, hstack]; exact h.live_le j (hsp ▸ hj)
  pc_le := hpc ▸ h.pc_le
  fault_true := hfault ▸ faultIsTrue_congr hmem hpc hsp h.fault_true

/-- An image is taken by a machine with no fault latched only, so that no record can be made false. -/
theorem State.Inv.loadImage {bytes : List Byte} (h : s.Inv) (hf : s.fault = none) (hl : s.loadImage bytes = some t) :
    t.Inv := by
  have mem_wf := wf_loadImage hl h.mem_wf
  obtain ⟨-, rfl⟩ := (loadImage_state_iff bytes s t).1 hl
  exact ⟨mem_wf, h.sp_le, h.live_le, h.pc_le, by rw [setMem_fault, hf]; trivial⟩

theorem System.Inv.perform (h : y.Inv) (hp : perform o y = .next (y', a)) : y'.Inv := by
  rcases perform_cases hp with ⟨keys, -, rfl, -⟩ | ⟨bytes, t, -, built, load, rfl, -⟩ | ⟨_, -, -, -, rfl, -⟩ |
    ⟨keys, -, rfl, -⟩ | ⟨-, rfl, -⟩ | ⟨-, rfl, -⟩ | ⟨-, rfl, -⟩ | ⟨t, -, cycle, rfl, -⟩
  · exact launch_inv keys
  · have fresh := h.fresh (by simp [built])
    refine ⟨h.machine.loadImage fresh.1 load, fun _ => ?_⟩
    obtain ⟨-, rfl⟩ := (loadImage_state_iff bytes y.machine t).1 load
    exact fresh
  · exact h
  · exact ⟨h.machine.congr rfl rfl rfl rfl rfl, h.fresh⟩
  · exact ⟨h.machine.congr rfl rfl rfl rfl rfl, h.fresh⟩
  · exact ⟨h.machine.congr rfl rfl rfl rfl rfl, h.fresh⟩
  · exact h
  · exact ⟨h.machine.step cycle, fun notRunning => absurd rfl notRunning⟩

/-- Settles O53: the operations but `LoadImage` and `Cycle` write nothing the invariant speaks of, or make the launch
state. -/
theorem operationsKeepTheInvariant : Obligations.OperationsKeepTheInvariant := fun _ _ _ _ => System.Inv.perform

/-! ### The elements no operation changes (R24, R33, R34, R53) -/

/-- A cycle writes the display only to clear it. -/
theorem State.Untouched.step (h : s.Untouched) (hs : step s = .next t) : t.Untouched := by
  obtain ⟨mem, index, delay, sound, -, disp⟩ := step_keeps hs
  refine ⟨index.trans h.i_zero, delay.trans h.dt_zero, sound.trans h.st_zero, ?_, fun a ha => ?_⟩
  · rcases disp with same | ⟨-, cleared⟩
    · exact same.trans h.dark
    · exact cleared
  · rw [State.byteAt, mem]; exact h.low_mem a ha

/-- An image is written from the program origin up. -/
theorem State.Untouched.loadImage {bytes : List Byte} (h : s.Untouched) (hm : Memory.wf Config.hw s.mem = true)
    (hl : s.loadImage bytes = some t) : t.Untouched := by
  have bytesAfter := byteAt_loadImage hl hm
  obtain ⟨-, rfl⟩ := (loadImage_state_iff bytes s t).1 hl
  refine ⟨h.i_zero, h.dt_zero, h.st_zero, h.dark, fun a ha => ?_⟩
  rw [bytesAfter, if_neg fun inside => absurd inside.1 (Nat.not_le.2 ha)]
  exact h.low_mem a ha

/-- A timer at 0 stays there (R187, R188). -/
theorem countDown_zero : countDown 0#8 = 0#8 := rfl

theorem State.Untouched.perform (hu : y.machine.Untouched) (h : y.Inv) (hp : perform o y = .next (y', a)) :
    y'.machine.Untouched := by
  rcases perform_cases hp with ⟨keys, -, rfl, -⟩ | ⟨bytes, t, -, -, load, rfl, -⟩ | ⟨_, -, -, -, rfl, -⟩ |
    ⟨keys, -, rfl, -⟩ | ⟨-, rfl, -⟩ | ⟨-, rfl, -⟩ | ⟨-, rfl, -⟩ | ⟨t, -, cycle, rfl, -⟩
  · exact resetWithKeys_untouched keys
  · exact hu.loadImage h.machine.mem_wf load
  · exact hu
  · exact ⟨hu.i_zero, hu.dt_zero, hu.st_zero, hu.dark, hu.low_mem⟩
  · have stays : countDown y.machine.dt = 0#8 := by rw [hu.dt_zero, countDown_zero]
    exact ⟨hu.i_zero, stays, hu.st_zero, hu.dark, hu.low_mem⟩
  · have stays : countDown y.machine.st = 0#8 := by rw [hu.st_zero, countDown_zero]
    exact ⟨hu.i_zero, hu.dt_zero, stays, hu.dark, hu.low_mem⟩
  · exact hu
  · exact hu.step cycle

/-- Settles O57: nothing writes `I`, a tick leaves a timer at 0 there, a cycle only clears the display, and an image
begins at the program origin. -/
theorem operationsKeepUntouched : Obligations.OperationsKeepUntouched := fun _ _ _ _ h hu hp =>
  ⟨h.perform hp, hu.perform h hp⟩

/-- Settles O54: reset has both, and every operation keeps both. -/
theorem reachableMachinesAreUntouched : Obligations.ReachableMachinesAreUntouched := fun keys _ _ _ h =>
  runOperations_keeps (Admitted := fun _ => True) (P := fun y => y.Inv ∧ y.machine.Untouched)
    (fun o y y' a _ ⟨hi, hu⟩ hp => operationsKeepUntouched o y y' a hi hu hp) (fun _ _ => trivial)
    ⟨launch_inv keys, resetWithKeys_untouched keys⟩ h

end Sys2Proof.Machine
end
